-- ==== Sys2Proof/Word.lean ====
section
/-! DEFINITION. The words of the block: bytes (`u8`/`s8` fields), the 128-bit command word of rule R47. -/

namespace Sys2Proof

/-- A `u8` (or the bits of an `s8`) of rule R13. -/
abbrev Byte := BitVec 8

/-- A command word `cmd_word[127:0]` (rules R25, R47, R58). -/
abbrev CmdWord := BitVec 128

end Sys2Proof
end

