-- ==== Sys2Proof/Machine/Operands.lean ====
section
/-! DEFINITION. Operand normalisation: the clamps and the shift of rules R73 to R75. -/

namespace Sys2Proof.Machine

/-- R73: `max(0, min(7, v))` of the signed reading of a `COL` or `ROW` byte. -/
def clamp07 (v : Byte) : Nat := (max 0 (min 7 v.toInt)).toNat

/-- `(1 << c)[7:0]`, the bit of column `c` (R31). -/
def colBit (c : Nat) : Byte := 1#8 <<< c

/-- The clamped shift `s'` of R74. -/
def clampShift (s : Byte) : Int := max (-7) (min 7 s.toInt)

/-- R74: logical left by a positive, logical right by a negative amount, bits shifted out discarded. -/
def adjustShift (v s : Byte) : Byte :=
  if 0 < clampShift s then v <<< (clampShift s).toNat
  else if clampShift s < 0 then v >>> (-clampShift s).toNat
  else v

/-- R75: the chip index a selector names in a chain of `n` chips, for every command but `clear 0`. -/
def chipIndex (n : Nat) (nth : Byte) : Nat :=
  if nth = 0 then 0 else min (nth.toNat - 1) (n - 1)

end Sys2Proof.Machine
end

