-- ==== Sys2Proof/Syntax.lean ====
section
/-! DEFINITION. The commands: one constructor per row of spec/opcode_table.json, operands in the order of rule R56. -/

namespace Sys2Proof

/-- The command set of rule R50 and the reserved row of rule R51. Signed operands (`col`, `row`,
`shift`) are kept as the byte of their field; its signed reading is `BitVec.toInt` (R49). -/
inductive Instr
  /-- OP 0x0 (R77). -/
  | clear (nth : Byte)
  /-- OP 0x1 (R78). -/
  | turnOn (col row nth : Byte)
  /-- OP 0x2 (R79). -/
  | onColumn (col nth : Byte)
  /-- OP 0x3 (R80). -/
  | onRow (row nth : Byte)
  /-- OP 0x4 (R81). -/
  | customColumn (data col nth shift : Byte)
  /-- OP 0x5 (R82). -/
  | customRow (data row nth shift : Byte)
  /-- OP 0x6 (R83); `b0` is the byte for row 0 (R48). -/
  | symbol (b0 b1 b2 b3 b4 b5 b6 b7 nth : Byte)
  /-- OP 0x7 (R84). -/
  | test
  /-- OP 0x8..0xF (R51): the whole word, because `ill_word` records it bit for bit (R23, R88). -/
  | reserved (word : CmdWord)
  deriving DecidableEq, Repr

end Sys2Proof
end

