-- ==== Sys2Proof/WellFormed.lean ====
section
/-! DEFINITION. Which terms of Instr stand for a command word. -/

namespace Sys2Proof

/-- Every operand byte is legal (R49: "Values out of the legal ranges are not rejected"); the word of
the reserved row has `W[3] = 1` (R51, R54). -/
def Instr.wellFormed : Instr → Bool
  | .clear _ => true
  | .turnOn _ _ _ => true
  | .onColumn _ _ => true
  | .onRow _ _ => true
  | .customColumn _ _ _ _ => true
  | .customRow _ _ _ _ => true
  | .symbol _ _ _ _ _ _ _ _ _ => true
  | .test => true
  | .reserved w => w.getLsbD 3

end Sys2Proof
end

