-- ==== Sys2Proof/Decode.lean ====
section
/-! DEFINITION. Decoding of a command word (rules R47 to R54) and, after it, the encoder. -/

namespace Sys2Proof

/-- The causes of ILL (R86). -/
inductive IllCause
  /-- 0b01, `OP` in 0x8..0xF (R51). -/
  | reservedOpcode
  /-- 0b10, `OP` in 0x0..0x7 with `RSV0 ≠ 0` or `RSV1 ≠ 0` (R52). -/
  | reservedField
  deriving DecidableEq, Repr

/-- The code recorded in `ill_cause` (R86). -/
def IllCause.code : IllCause → BitVec 2
  | .reservedOpcode => 0b01
  | .reservedField => 0b10

/-- What a word spells: a row of the opcode table, or nothing (rejected by cause). -/
inductive Decoded
  | instr (i : Instr)
  | rejected (c : IllCause)
  deriving DecidableEq, Repr

/-! ## The fields of rule R47 -/

def fieldOP (w : CmdWord) : BitVec 4 := w.extractLsb' 0 4
def fieldRSV0 (w : CmdWord) : BitVec 4 := w.extractLsb' 4 4
def fieldNTH (w : CmdWord) : Byte := w.extractLsb' 8 8
def fieldCOL (w : CmdWord) : Byte := w.extractLsb' 16 8
def fieldROW (w : CmdWord) : Byte := w.extractLsb' 24 8
def fieldDATA (w : CmdWord) : Byte := w.extractLsb' 32 8
def fieldSHIFT (w : CmdWord) : Byte := w.extractLsb' 40 8
def fieldRSV1 (w : CmdWord) : BitVec 16 := w.extractLsb' 48 16
/-- `SYM[i]` is `W[64+8i+7 : 64+8i]` (R48). -/
def fieldSYM (w : CmdWord) (i : Nat) : Byte := w.extractLsb' (64 + 8 * i) 8

/-- The command of a word whose `OP` is in 0x0..0x7, by the opcode map of R50. -/
def decodeOp (w : CmdWord) : Instr :=
  match (fieldOP w).toNat with
  | 0 => .clear (fieldNTH w)
  | 1 => .turnOn (fieldCOL w) (fieldROW w) (fieldNTH w)
  | 2 => .onColumn (fieldCOL w) (fieldNTH w)
  | 3 => .onRow (fieldROW w) (fieldNTH w)
  | 4 => .customColumn (fieldDATA w) (fieldCOL w) (fieldNTH w) (fieldSHIFT w)
  | 5 => .customRow (fieldDATA w) (fieldROW w) (fieldNTH w) (fieldSHIFT w)
  | 6 => .symbol (fieldSYM w 0) (fieldSYM w 1) (fieldSYM w 2) (fieldSYM w 3)
      (fieldSYM w 4) (fieldSYM w 5) (fieldSYM w 6) (fieldSYM w 7) (fieldNTH w)
  | 7 => .test
  | _ => .reserved w

/-- R54, checked in its order: the reserved opcode first, then the reserved fields, then the map. A
reserved opcode is the table's ninth row, whose meaning raises ILL with cause 0b01. -/
def decode (w : CmdWord) : Decoded :=
  if w.getLsbD 3 then .instr (.reserved w)
  else if fieldRSV0 w ≠ 0 ∨ fieldRSV1 w ≠ 0 then .rejected .reservedField
  else .instr (decodeOp w)

/-- The host's question of the opcode table: the word is one 128-bit command word (R58). -/
def decodeTableWord (nbits w : Nat) : Option Instr :=
  match decode (BitVec.ofNat 128 (w % 2 ^ nbits)) with
  | .instr i => some i
  | .rejected _ => none

/-! ## The encoder -/

/-- The fields of R47 laid into one word, reserved fields 0. -/
def assembleFields (op : BitVec 4) (nth col row data shift : Byte) (sym : BitVec 64) : CmdWord :=
  sym ++ 0#16 ++ shift ++ data ++ row ++ col ++ nth ++ 0#4 ++ op

/-- The eight bytes of `SYM`, `b0` lowest (R48). -/
def packSym (b0 b1 b2 b3 b4 b5 b6 b7 : Byte) : BitVec 64 :=
  b7 ++ b6 ++ b5 ++ b4 ++ b3 ++ b2 ++ b1 ++ b0

/-- The word of a command; unused fields are 0 (R56: "Unused and reserved fields are assembled as 0"). -/
def encode : Instr → CmdWord
  | .clear nth => assembleFields 0x0 nth 0 0 0 0 0
  | .turnOn col row nth => assembleFields 0x1 nth col row 0 0 0
  | .onColumn col nth => assembleFields 0x2 nth col 0 0 0 0
  | .onRow row nth => assembleFields 0x3 nth 0 row 0 0 0
  | .customColumn data col nth shift => assembleFields 0x4 nth col 0 data shift 0
  | .customRow data row nth shift => assembleFields 0x5 nth 0 row data shift 0
  | .symbol b0 b1 b2 b3 b4 b5 b6 b7 nth =>
      assembleFields 0x6 nth 0 0 0 0 (packSym b0 b1 b2 b3 b4 b5 b6 b7)
  | .test => assembleFields 0x7 0 0 0 0 0 0
  | .reserved w => w

end Sys2Proof
end

