-- ==== Sys2Proof/Config.lean ====
section
/-! DEFINITION. The implementation parameters of rules R6 to R11, and the open durations. -/

namespace Sys2Proof

/-- `CADENCE` (rule R8): how chip-select frames the pairs of a wire program (rules R66 to R68). -/
inductive Cadence
  | group
  | pair
  | flush
  deriving DecidableEq, Repr

/-- The parameters of rules R6 to R10. They stand in State, where a reset step samples them and no other step changes them
(R15, R24, R29; log entry 4). -/
structure Config where
  /-- `N`, the chain length (R6). -/
  n : Nat
  /-- `ORIENT`, descriptive only (R7). -/
  orient : Byte
  /-- `CADENCE` (R8). -/
  cadence : Cadence
  /-- `INIT_VALUES` (R9): decode-mode, scan-limit, shutdown, display-test. Any bytes are taken: DESIGN CHOICE (log entry 18). -/
  initDecode : Byte
  initScan : Byte
  initShutdown : Byte
  initTest : Byte
  /-- `INIT_INTENSITY` (R10); `none` is `NONE`. -/
  initIntensity : Option Byte
  deriving DecidableEq, Repr

/-- R6: `1 ≤ N ≤ 255`. A configuration outside this is refused. No other parameter is looked at: R9 quotes "display-test must
end in the "off" state" and asks no refusal, and admitting a display-test initial value that is not off is a DESIGN CHOICE
(log entry 18). -/
def Config.ok (c : Config) : Bool := decide (1 ≤ c.n ∧ c.n ≤ 255)

/-- "This hardware" of rules R6 to R10, with `N` and `ORIENT` at their defaults. -/
def Config.thisHardware : Config :=
  { n := 1, orient := 0x00, cadence := .group,
    initDecode := 0x00, initScan := 0x07, initShutdown := 0x01, initTest := 0x00,
    initIntensity := none }

/-- `T_SETTLE` (R11): OPEN, a free value (log entry 8). -/
opaque Config.tSettle : Nat

/-- `T_PAUSE` (R11): OPEN, a free value (log entry 8). -/
opaque Config.tPause : Nat

/-- What a register of a chip holds where the spec says any value (R44, R105, R109): a free value for each draw (the counter
`State.free`), chain position and register address (log entry 17). -/
opaque Config.freeReg : Nat → Nat → Nat → Byte

/-- The same for a chip's shift register, for each draw and chain position (log entry 17). -/
opaque Config.freeSR : Nat → Nat → BitVec 16

/-- `T_BIT` (R11): this hardware 0. -/
def Config.tBit : Nat := 0

end Sys2Proof
end

