-- ==== Sys2Proof/Machine/Memory.lean ====
section
/-! DEFINITION. Byte memory as a canonical list of cells. It holds the framebuffer (rules R16, R30) and, in the
reference chain model, the registers of one chip (rule R44). -/

namespace Sys2Proof.Machine

/-- Cells by strictly rising address, none equal to what an unlisted address reads as (`Memory.wf`). -/
abbrev Memory := List Host.Cell

/-- What an unlisted address reads as: 0x00, the framebuffer's reset content (R29). -/
def Memory.unlisted : Byte := 0x00

def Memory.read : Memory → Nat → Byte
  | [], _ => Memory.unlisted
  | (b, v) :: m, a => if b = a then v else Memory.read m a

/-- The memory without a cell at `a`. -/
def Memory.erase : Memory → Nat → Memory
  | [], _ => []
  | (b, v) :: m, a => if b = a then Memory.erase m a else (b, v) :: Memory.erase m a

/-- A cell put before the first cell of a higher address. -/
def Memory.insert : Memory → Nat → Byte → Memory
  | [], a, v => [(a, v)]
  | (b, u) :: m, a, v => if a < b then (a, v) :: (b, u) :: m else (b, u) :: Memory.insert m a v

/-- Writing the value an unlisted address reads as removes the cell, so equal memories are equal lists. -/
def Memory.write (m : Memory) (a : Nat) (v : Byte) : Memory :=
  if v = Memory.unlisted then Memory.erase m a else Memory.insert (Memory.erase m a) a v

/-- The canonical form. -/
abbrev Memory.wf (m : Memory) : Prop :=
  m.Pairwise (fun x y => x.1 < y.1) ∧ ∀ c ∈ m, c.2 ≠ Memory.unlisted

/-- The address of framebuffer cell `(r, j)`. R30: "Its layout in a realisation's storage is free"; `j < 256`
because `N ≤ 255`, so different cells have different addresses (log entry 5). -/
def fbAddr (r j : Nat) : Nat := 256 * r + j

end Sys2Proof.Machine
end

