-- ==== Sys2Proof/Machine/Transport.lean ====
section
/-! DEFINITION. Pin events, the micro-operations of rules R61 to R65, the framing cadences (R66 to R68), the full
flush (R69), the display-test program (R84) and the reset sequence (R101 to R103). -/

namespace Sys2Proof.Machine

/-- The kinds of wait event (R60). -/
inductive WaitKind
  | settle
  | pause
  deriving DecidableEq, Repr

/-- One event (R60). A level is a Bool: `true` is 1. -/
inductive Event
  | cs (l : Bool)
  | clk (l : Bool)
  | din (l : Bool)
  | wait (k : WaitKind)
  deriving DecidableEq, Repr

/-- A pair: register byte and value byte (R55, R64). -/
structure WirePair where
  reg : Byte
  value : Byte
  deriving DecidableEq, Repr

/-- Whether a wire program is the flush of R69 (`FLUSHPROG`) or not (`OTHER`). -/
inductive ProgKind
  | flushProg
  | other
  deriving DecidableEq, Repr

/-! ## The remote register map (R37, R38) -/

/-- Row `i` of a chip is its register `i + 1` (R37). -/
def rowRegister (i : Nat) : Byte := BitVec.ofNat 8 (i + 1)
def regDecodeMode : Byte := 0x09
def regIntensity : Byte := 0x0A
def regScanLimit : Byte := 0x0B
def regShutdown : Byte := 0x0C
def regDisplayTest : Byte := 0x0F

/-! ## Micro-operations -/

/-- R61. -/
def beginTransfer : List Event := [.cs false, .wait .settle]

/-- One bit of R62: DIN is driven before the rising edge. -/
def sendBit (b : Bool) : List Event := [.din b, .clk true, .clk false]

/-- R62: bit 7 first. -/
def sendByte (v : Byte) : List Event :=
  [7, 6, 5, 4, 3, 2, 1, 0].flatMap fun b => sendBit (v.getLsbD b)

/-- R63. -/
def endTransfer : List Event := [.cs true]

/-- R64: register first, no CS event. -/
def sendPair (p : WirePair) : List Event := sendByte p.reg ++ sendByte p.value

/-- R65: `group(reg, vals)`, ascending chip index. -/
def regGroup (reg : Byte) (vals : List Byte) : List WirePair := vals.map fun v => ⟨reg, v⟩

/-- R65: `bcast(reg, v)` to `n` chips. -/
def bcast (n : Nat) (reg v : Byte) : List WirePair := regGroup reg (List.replicate n v)

/-! ## Framing -/

/-- One chip-select frame around some pairs. -/
def frame (ps : List WirePair) : List Event :=
  beginTransfer ++ ps.flatMap sendPair ++ endTransfer

/-- The frames a cadence makes of a wire program, each as its pairs (R66 to R68). -/
def framing (c : Cadence) (k : ProgKind) (gs : List (List WirePair)) : List (List WirePair) :=
  match c, k with
  | .group, .flushProg => gs
  | .group, .other => gs
  | .pair, .flushProg => gs.flatMap fun g => g.map fun p => [p]
  | .pair, .other => gs.flatMap fun g => g.map fun p => [p]
  | .flush, .flushProg => [gs.flatten]
  | .flush, .other => gs

/-- `Frames(gs, kind)` of R66 to R68. -/
def frames (c : Cadence) (k : ProgKind) (gs : List (List WirePair)) : List Event :=
  (framing c k gs).flatMap frame

/-! ## Wire programs -/

/-- The values of row `i` for chip indices `0..n-1`. -/
def rowValues (n : Nat) (fb : Memory) (i : Nat) : List Byte :=
  (List.range n).map fun j => fb.read (fbAddr i j)

/-- The eight register groups of the flush (R69). -/
def flushGroups (n : Nat) (fb : Memory) : List (List WirePair) :=
  (List.range 8).map fun i => regGroup (rowRegister i) (rowValues n fb i)

/-- `writeDisplay()` (R69). -/
def writeDisplay (cfg : Config) (fb : Memory) : List Event :=
  frames cfg.cadence .flushProg (flushGroups cfg.n fb)

/-- The events of `test` (R84). -/
def testEvents (cfg : Config) : List Event :=
  frames cfg.cadence .other [bcast cfg.n regDisplayTest 0x01] ++ [.wait .pause] ++
  frames cfg.cadence .other [bcast cfg.n regDisplayTest 0x00] ++ [.wait .pause]

/-- The register groups of chip initialisation, in the order of R101. -/
def initGroups (cfg : Config) : List (List WirePair) :=
  [ bcast cfg.n regDecodeMode cfg.initDecode,
    bcast cfg.n regScanLimit cfg.initScan,
    bcast cfg.n regShutdown cfg.initShutdown,
    bcast cfg.n regDisplayTest cfg.initTest ] ++
  match cfg.initIntensity with
  | none => []
  | some v => [bcast cfg.n regIntensity v]

/-- `InitEvents` of R101. -/
def initEvents (cfg : Config) : List Event := frames cfg.cadence .other (initGroups cfg)

/-- `ResetSeq = InitEvents ++ ClearEvents` (R103); the clear-all path flushes an all-zero buffer (R102). -/
def resetSeq (cfg : Config) : List Event := initEvents cfg ++ writeDisplay cfg []

/-- The least duration of an event (R11, R60): lower bounds only, which no functional rule reads (log entry 8). -/
def eventMinDuration : Event → Nat
  | .cs _ => Config.tBit
  | .clk _ => Config.tBit
  | .din _ => Config.tBit
  | .wait .settle => Config.tSettle
  | .wait .pause => Config.tPause

end Sys2Proof.Machine
end

