-- ==== Sys2Proof/Machine/State.lean ====
section
/-! DEFINITION. The state of rule R15, the configuration (R6 to R10), the reference chain (R44) and the host's moves. -/

namespace Sys2Proof.Machine

/-- The sequencer phase (R19). -/
inductive Phase
  | init
  | idle
  | busy
  deriving DecidableEq, Repr

/-- One chip of the reference chain (R44): `SR[p]` and `REG[p][a]`, `a` in 0x1..0xF. -/
structure Chip where
  sr : BitVec 16
  regs : Memory
  deriving DecidableEq, Repr

/-- What the host drives on `rst`, `cmd_valid` and `cmd_word` (R25, R95), and the parameters it holds while `rst = 1` (R98,
R104), one move after the other. A
finite list of `quiet`, `offer` and `reset` is every finite sequence of port values the block can tell
apart; `hold` is the host R106 asks for, which keeps its word on the port until it is taken. -/
inductive HostMove
  /-- One step with `rst = 0`, `cmd_valid = 0`. -/
  | quiet
  /-- One step with `rst = 0`, `cmd_valid = 1`, `cmd_word = w`, taken or not. -/
  | offer (w : CmdWord)
  /-- `rst = 0`, `cmd_valid = 1`, `cmd_word = w` in every step up to the one that takes the word. -/
  | hold (w : CmdWord)
  /-- One step with `rst = 1` (R98), in which the platform's parameters are `cfg` and are sampled (R29, R104). -/
  | reset (cfg : Config)
  deriving DecidableEq, Repr

structure State where
  /-- `FB` (R16), by `fbAddr`. -/
  fb : Memory
  /-- The output pins (R18). -/
  cs : Bool
  clk : Bool
  din : Bool
  /-- R19. -/
  phase : Phase
  /-- The latched command word (R20). -/
  cmd : CmdWord
  /-- The event list and the position in it (R21). -/
  ev : List Event
  pc : Nat
  /-- The error status (R23). -/
  ill : Bool
  illCause : BitVec 2
  illWord : CmdWord
  /-- The parameters (R6 to R10) as last sampled: they "hold until the next reset" (R29). -/
  cfg : Config
  /-- The reference chain (R44), position 1 (nearest the block) first. -/
  chain : List Chip
  /-- The host's moves to come, the current one first; an empty list is a quiet host for ever. -/
  host : List HostMove
  /-- The draws of free values so far: the model's own counter (log entry 17). -/
  free : Nat
  deriving DecidableEq, Repr

/-- Why the machine stops. -/
inductive Fault
  /-- Raised by `performNext` (so by `step`) in a state in `INIT` or `BUSY` with `pc ≥ length(ev)`, for which
  R59 gives no step. No run from reset reaches one (R21: the phase becomes `IDLE` in the step that performs
  the last event). SAFE: the model stops where the spec says nothing. -/
  | noEventLeft
  deriving DecidableEq, Repr

/-- Why a state or an instruction has no meaning. -/
inductive Refusal
  /-- Raised by an arm of `exec` without a meaning; this model has no such arm. SAFE. -/
  | notModelled (mnemonic : String)
  /-- Raised by `step` in a configuration, held or being sampled, with `N = 0` or `N > 255` (R6: "a model refuses a configuration
  with `N = 0` or `N > 255`"). SAFE. -/
  | configurationOutOfRange
  deriving DecidableEq, Repr

/-- A chip as the model has it at power-up: all bits 0. The spec gives "any value" (R44, R105): DESIGN CHOICE, unsafe
(log entry 2). -/
def Chip.powerUp : Chip := { sr := 0, regs := [] }

/-- The block of configuration `cfg` right after reset (R29), with fresh chips and a quiet host. `cmd` is unspecified
there: DESIGN CHOICE 0 (log entry 1); so is the counter (log entry 17). -/
def State.resetOf (cfg : Config) : State :=
  { fb := [], cs := true, clk := false, din := false, phase := .init, cmd := 0,
    ev := resetSeq cfg, pc := 0, ill := false, illCause := 0b00, illWord := 0,
    cfg := cfg, chain := List.replicate cfg.n Chip.powerUp, host := [], free := 0 }

/-- This hardware right after reset (R29, R6 to R10). -/
def State.reset : State := State.resetOf Config.thisHardware

end Sys2Proof.Machine
end

