-- ==== Sys2Proof/Machine/Ops.lean ====
section
/-! DEFINITION. The shared operations: framebuffer access, the pins with the reference chain behind them, performing an
event (R59), starting an event list (R26, R76), rejecting a word (R88), reset (R98), the host's ports (R25). -/

namespace Sys2Proof.Machine

/-! ## Framebuffer (R14, R30, R32) -/

/-- `FB[r][j]`. -/
def State.fbRead (s : State) (r j : Nat) : Byte := s.fb.read (fbAddr r j)

/-- `FB[r][k] <- v`. -/
def State.fbWrite (s : State) (r k : Nat) (v : Byte) : State :=
  { s with fb := s.fb.write (fbAddr r k) v }

/-- `for r in 0..m-1: FB[r][k] <- f r FB[r][k]`. -/
def writeRows (f : Nat → Byte → Byte) (k : Nat) : Nat → Memory → Memory
  | 0, fb => fb
  | m + 1, fb =>
    (writeRows f k m fb).write (fbAddr m k) (f m ((writeRows f k m fb).read (fbAddr m k)))

/-- `for r in 0..7: FB[r][k] <- f r FB[r][k]`. -/
def State.fbMapRows (s : State) (f : Nat → Byte → Byte) (k : Nat) : State :=
  { s with fb := writeRows f k 8 s.fb }

/-- `for j in 0..m-1: for r in 0..7: FB[r][j] <- 0x00`. -/
def clearChips : Nat → Memory → Memory
  | 0, fb => fb
  | m + 1, fb => writeRows (fun _ _ => 0x00) m 8 (clearChips m fb)

/-- The mutation of `clear 0` (R77, R102). -/
def State.fbClearAll (s : State) : State := { s with fb := clearChips s.cfg.n s.fb }

/-! ## The reference chain (R44) -/

/-- CLK rising edge with CS = 0: `SR[1]` takes `DIN`, `SR[p]` takes the top bit of `SR[p-1]`, all at once. -/
def chainShift (d : Bool) : List Chip → List Chip
  | [] => []
  | c :: cs => { c with sr := c.sr.shiftConcat d } :: chainShift c.sr.msb cs

/-- CS rising edge at one chip: address `SR[11:8]`, data `SR[7:0]`, address 0 a no-op. -/
def Chip.latch (c : Chip) : Chip :=
  if c.sr.extractLsb' 8 4 = 0 then c
  else { c with regs := c.regs.write (c.sr.extractLsb' 8 4).toNat (c.sr.extractLsb' 0 8) }

/-- `REG[p][a]`; position `p` is counted from 1. -/
def chainReg (chain : List Chip) (p a : Nat) : Byte :=
  (chain[p - 1]?.getD Chip.powerUp).regs.read a

/-- `SR[p]`. -/
def chainSR (chain : List Chip) (p : Nat) : BitVec 16 :=
  (chain[p - 1]?.getD Chip.powerUp).sr

/-! ## Pins (R18) and the edges the chips see -/

def State.driveCS (s : State) (l : Bool) : State :=
  { s with cs := l, chain := if l && !s.cs then s.chain.map Chip.latch else s.chain }

def State.driveCLK (s : State) (l : Bool) : State :=
  { s with clk := l, chain := if l && !s.clk && !s.cs then chainShift s.din s.chain else s.chain }

def State.driveDIN (s : State) (l : Bool) : State := { s with din := l }

/-- The `case e of` of R59; a wait changes no pin. -/
def performEvent (s : State) : Event → State
  | .cs l => s.driveCS l
  | .clk l => s.driveCLK l
  | .din l => s.driveDIN l
  | .wait _ => s

/-- Several events in list order. -/
def performEvents (s : State) (es : List Event) : State := es.foldl performEvent s

/-- R59 past the event itself: `pc <- pc + 1; if pc = length(ev): phase <- IDLE`. -/
def State.advance (s : State) : State :=
  { s with pc := s.pc + 1, phase := if s.pc + 1 = s.ev.length then .idle else s.phase }

/-- The step of R59. Without an event left the spec gives no step (R21). -/
def performNext (s : State) : Host.Outcome State Fault Refusal :=
  match s.ev[s.pc]? with
  | some e => .next (performEvent s e).advance
  | none => .fault .noEventLeft

/-! ## Acceptance (R26, R76) -/

/-- `ev <- es; pc <- 0; phase <- BUSY`. -/
def State.startEvents (s : State) (es : List Event) : State :=
  { s with ev := es, pc := 0, phase := .busy }

/-- "then flush (rule R76)": from the framebuffer as it now is. -/
def State.startFlush (s : State) : State := s.startEvents (writeDisplay s.cfg s.fb)

/-! ## Rejection: the only exceptional outcome (R86 to R89). There is no return from it (R89). -/

/-- `raise ILL(cause, word)` (R88): only the first is recorded; nothing else changes. -/
def raiseIll (cause : IllCause) (word : CmdWord) (s : State) : State :=
  if s.ill then s else { s with ill := true, illCause := cause.code, illWord := word }

/-! ## Reset (R98, R99) and the chips it meets (R109) -/

/-- The registers, by address, that take the values of draw `k` at position `p`. -/
def freeRegs (k p : Nat) (as : List Nat) (m : Memory) : Memory :=
  as.foldl (fun m a => m.write a (Config.freeReg k p a)) m

/-- The registers the reset sequence does not rewrite (R101, R109), whatever `INIT_INTENSITY` is: intensity and the unused
addresses, and under `FLUSH` rows 0..6 (R110). -/
def leftByReset (cfg : Config) : List Nat :=
  (if cfg.cadence = .flush then [1, 2, 3, 4, 5, 6, 7] else []) ++ [0xA, 0xD, 0xE]

/-- A chip at position `p` after a reset inside a frame (R109): it latches what it holds, and "any value" is taken for the
registers that the coming reset sequence does not rewrite. -/
def Chip.interrupted (cfg : Config) (k p : Nat) (c : Chip) : Chip :=
  { c.latch with regs := freeRegs k p (leftByReset cfg) c.latch.regs }

/-- A chip of which nothing is known (R44, R105). -/
def Chip.unknown (k p : Nat) : Chip :=
  { sr := Config.freeSR k p, regs := freeRegs k p (List.range' 1 15) [] }

/-- A chain of `n` chips: the first stay, chips that come new are unknown (log entry 4). -/
def fitChain (n k : Nat) (l : List Chip) : List Chip :=
  l.take n ++ (List.range (n - l.length)).map fun i => Chip.unknown k (l.length + i + 1)

/-- The chips after a reset step that samples `cfg`: CS going to 1 is an edge if CS was 0 (R109). -/
def resetChips (cfg : Config) (s : State) : List Chip :=
  fitChain cfg.n s.free (if s.cs then s.chain else s.chain.mapIdx fun i c => c.interrupted cfg s.free (i + 1))

/-- A step with `rst = 1`, whatever the phase: R98, with the parameters `cfg` sampled (R29). `cmd` is unspecified after
reset (R29): the value of log entry 1. -/
def resetBlock (cfg : Config) (s : State) : State :=
  { s with
    fb := [], cs := true, clk := false, din := false, phase := .init, cmd := 0,
    ev := resetSeq cfg, pc := 0, ill := false, illCause := 0b00, illWord := 0,
    cfg := cfg, chain := resetChips cfg s, free := s.free + 1 }

/-! ## The host's ports (R25, R106) -/

/-- The level of `rst` in this step. -/
def State.rst (s : State) : Bool :=
  match s.host with
  | .reset _ :: _ => true
  | _ => false

/-- The parameters of this step: those a reset samples in it, else those held (R29). -/
def State.cfgNow (s : State) : Config :=
  match s.host with
  | .reset cfg :: _ => cfg
  | _ => s.cfg

/-- `cmd_word` where `cmd_valid = 1`, nothing where it is 0. -/
def State.offered (s : State) : Option CmdWord :=
  match s.host with
  | .offer w :: _ => some w
  | .hold w :: _ => some w
  | _ => none

/-- The host's moves after a step that takes no word: a held word stays on the port. -/
def hostAfterStep : List HostMove → List HostMove
  | .hold w :: h => .hold w :: h
  | _ :: h => h
  | [] => []

/-- A step passes for the host without a word taken. -/
def State.hostWaits (s : State) : State := { s with host := hostAfterStep s.host }

/-- A step passes for the host in which its word is taken (R26: the handshake completes). -/
def State.hostTaken (s : State) : State := { s with host := s.host.tail }

end Sys2Proof.Machine
end

