-- ==== Sys2Proof/Machine/DisplayTest.lean ====
section
/-! DEFINITION. The display-test command (rule R84): no framebuffer access, no flush. -/

namespace Sys2Proof.Machine

/-- `test` (R84). -/
def execTest (s : State) : Host.Outcome State Fault Refusal :=
  .next (s.startEvents (testEvents s.cfg))

end Sys2Proof.Machine
end

