-- ==== Sys2Proof/Machine/Drawing.lean ====
section
/-! DEFINITION. The drawing and clearing commands (rules R77 to R83): a framebuffer mutation in the acceptance step, then
the full flush (R76). None can fail (R85). -/

namespace Sys2Proof.Machine

/-- `clear nth` (R77). -/
def execClear (nth : Byte) (s : State) : Host.Outcome State Fault Refusal :=
  if nth = 0 then .next s.fbClearAll.startFlush
  else .next (s.fbMapRows (fun _ _ => 0x00) (chipIndex s.cfg.n nth)).startFlush

/-- `turnOn col, row, nth` (R78): the row byte is overwritten. -/
def execTurnOn (col row nth : Byte) (s : State) : Host.Outcome State Fault Refusal :=
  .next (s.fbWrite (clamp07 row) (chipIndex s.cfg.n nth) (colBit (clamp07 col))).startFlush

/-- `onColumn col, nth` (R79): OR into all eight rows. -/
def execOnColumn (col nth : Byte) (s : State) : Host.Outcome State Fault Refusal :=
  .next (s.fbMapRows (fun _ b => b ||| colBit (clamp07 col)) (chipIndex s.cfg.n nth)).startFlush

/-- `onRow row, nth` (R80). -/
def execOnRow (row nth : Byte) (s : State) : Host.Outcome State Fault Refusal :=
  .next (s.fbWrite (clamp07 row) (chipIndex s.cfg.n nth) 0xFF).startFlush

/-- `customColumn byte, col, nth, shift` (R81): bit `i` of the shifted byte selects row `i`; OR, no clearing. -/
def execCustomColumn (data col nth shift : Byte) (s : State) : Host.Outcome State Fault Refusal :=
  .next (s.fbMapRows
    (fun i b => if (adjustShift data shift).getLsbD i then b ||| colBit (clamp07 col) else b)
    (chipIndex s.cfg.n nth)).startFlush

/-- `customRow byte, row, nth, shift` (R82): overwrite. -/
def execCustomRow (data row nth shift : Byte) (s : State) : Host.Outcome State Fault Refusal :=
  .next (s.fbWrite (clamp07 row) (chipIndex s.cfg.n nth) (adjustShift data shift)).startFlush

/-- `symbol b0..b7, nth` (R83): the eight row bytes verbatim. -/
def execSymbol (b0 b1 b2 b3 b4 b5 b6 b7 nth : Byte) (s : State) : Host.Outcome State Fault Refusal :=
  .next (s.fbMapRows (fun i _ => [b0, b1, b2, b3, b4, b5, b6, b7].getD i 0x00)
    (chipIndex s.cfg.n nth)).startFlush

end Sys2Proof.Machine
end

