-- ==== Sys2Proof/Machine/Reserved.lean ====
section
/-! DEFINITION. The reserved opcodes (rule R51): their one effect is the rejection of rule R88. -/

namespace Sys2Proof.Machine

/-- A word with `OP` in 0x8..0xF: `raise ILL(0b01, W)` (R51, R54, R88). -/
def execReserved (word : CmdWord) (s : State) : Host.Outcome State Fault Refusal :=
  .next (raiseIll .reservedOpcode word s)

end Sys2Proof.Machine
end

