-- ==== Sys2Proof/Machine/Dispatch.lean ====
section
/-! DEFINITION. What an accepted command does in the acceptance step: one arm per constructor of Instr. -/

namespace Sys2Proof.Machine

def exec (i : Instr) (s : State) : Host.Outcome State Fault Refusal :=
  match i with
  | .clear nth => Sys2Proof.Machine.execClear nth s
  | .turnOn col row nth => Sys2Proof.Machine.execTurnOn col row nth s
  | .onColumn col nth => Sys2Proof.Machine.execOnColumn col nth s
  | .onRow row nth => Sys2Proof.Machine.execOnRow row nth s
  | .customColumn data col nth shift => Sys2Proof.Machine.execCustomColumn data col nth shift s
  | .customRow data row nth shift => Sys2Proof.Machine.execCustomRow data row nth shift s
  | .symbol b0 b1 b2 b3 b4 b5 b6 b7 nth => Sys2Proof.Machine.execSymbol b0 b1 b2 b3 b4 b5 b6 b7 nth s
  | .test => Sys2Proof.Machine.execTest s
  | .reserved word => Sys2Proof.Machine.execReserved word s

end Sys2Proof.Machine
end

