-- ==== Sys2Proof/Machine/Accept.lean ====
section
/-! DEFINITION. Command acceptance (rule R26), the step in `IDLE`, and the placing of a word on the command port. -/

namespace Sys2Proof.Machine

/-- R26: the word is latched and decoded; it is performed or rejected. -/
def accept (w : CmdWord) (s : State) : Host.Outcome State Fault Refusal :=
  match decode w with
  | .instr i => exec i { s with cmd := w }
  | .rejected c => .next (raiseIll c w { s with cmd := w })

/-- A step in `IDLE` with `rst = 0`: an offered word is taken; without one nothing happens (R26, R41). -/
def idleStep (s : State) : Host.Outcome State Fault Refusal :=
  match s.offered with
  | some w => accept w s.hostTaken
  | none => .next s.hostWaits

/-- The state in which the block is idle, its event list performed, and the host offers `w` (log entry 11). -/
def State.offering (s : State) (w : CmdWord) : State :=
  { s with phase := .idle, pc := s.ev.length, host := .offer w :: s.host }

end Sys2Proof.Machine
end

