-- ==== Sys2Proof/Machine/Step.lean ====
section
/-! DEFINITION. One step of the block. -/

namespace Sys2Proof.Machine

/-- One step: `rst` first (R98), then an event in `INIT` and `BUSY` (R59) or acceptance in `IDLE` (R26). A
configuration the spec refuses is refused (R6). -/
def step (s : State) : Host.Outcome State Fault Refusal :=
  if !s.cfgNow.ok then .refused .configurationOutOfRange
  else if s.rst then .next (resetBlock s.cfgNow s.hostWaits)
  else match s.phase with
    | .idle => idleStep s
    | .init => performNext s.hostWaits
    | .busy => performNext s.hostWaits

/-- The word `w` offered on the command port of the idle block: the next step accepts it. The block fetches nothing
(R42), so this is how a command comes to run (log entry 11). -/
def State.withFetchWord (s : State) (nbits w : Nat) : State :=
  s.offering (BitVec.ofNat 128 (w % 2 ^ nbits))

end Sys2Proof.Machine
end

