-- ==== Sys2Proof/Machine/Assembler.lean ====
section
/-! DEFINITION. The assembly notation of rules R56 and R57: one line to one command word. -/

namespace Sys2Proof.Machine

/-- `nth`, `byte` and `b0..b7`: refused outside 0..255, else the low 8 bits (R56). -/
def asmU8 (x : Int) : Option Byte := if 0 ≤ x ∧ x ≤ 255 then some (BitVec.ofInt 8 x) else none

/-- `col`, `row` and `shift`: refused outside -128..127, else the low 8 bits (R56). -/
def asmS8 (x : Int) : Option Byte := if -128 ≤ x ∧ x ≤ 127 then some (BitVec.ofInt 8 x) else none

/-- A mnemonic and its operands, every form of R56; an omitted `nth` or `shift` is 0 (R57). -/
def assemble (mnemonic : String) (operands : List Int) : Option Instr :=
  match mnemonic, operands with
  | "clear", [] => some (.clear 0)
  | "clear", [nth] => return .clear (← asmU8 nth)
  | "turnOn", [col, row] => return .turnOn (← asmS8 col) (← asmS8 row) 0
  | "turnOn", [col, row, nth] => return .turnOn (← asmS8 col) (← asmS8 row) (← asmU8 nth)
  | "onColumn", [col] => return .onColumn (← asmS8 col) 0
  | "onColumn", [col, nth] => return .onColumn (← asmS8 col) (← asmU8 nth)
  | "onRow", [row] => return .onRow (← asmS8 row) 0
  | "onRow", [row, nth] => return .onRow (← asmS8 row) (← asmU8 nth)
  | "customColumn", [data, col] => return .customColumn (← asmU8 data) (← asmS8 col) 0 0
  | "customColumn", [data, col, nth] =>
      return .customColumn (← asmU8 data) (← asmS8 col) (← asmU8 nth) 0
  | "customColumn", [data, col, nth, shift] =>
      return .customColumn (← asmU8 data) (← asmS8 col) (← asmU8 nth) (← asmS8 shift)
  | "customRow", [data, row] => return .customRow (← asmU8 data) (← asmS8 row) 0 0
  | "customRow", [data, row, nth] =>
      return .customRow (← asmU8 data) (← asmS8 row) (← asmU8 nth) 0
  | "customRow", [data, row, nth, shift] =>
      return .customRow (← asmU8 data) (← asmS8 row) (← asmU8 nth) (← asmS8 shift)
  | "symbol", [b0, b1, b2, b3, b4, b5, b6, b7] =>
      return .symbol (← asmU8 b0) (← asmU8 b1) (← asmU8 b2) (← asmU8 b3)
        (← asmU8 b4) (← asmU8 b5) (← asmU8 b6) (← asmU8 b7) 0
  | "symbol", [b0, b1, b2, b3, b4, b5, b6, b7, nth] =>
      return .symbol (← asmU8 b0) (← asmU8 b1) (← asmU8 b2) (← asmU8 b3)
        (← asmU8 b4) (← asmU8 b5) (← asmU8 b6) (← asmU8 b7) (← asmU8 nth)
  | "test", [] => some .test
  | _, _ => none

/-! ## The text of a line (log entry 14) -/

def asmBlank (c : Char) : Bool := c == ' ' || c == '\t'

def asmTrim (cs : List Char) : List Char :=
  ((cs.dropWhile asmBlank).reverse.dropWhile asmBlank).reverse

/-- The texts between commas. -/
def asmSplit : List Char → List (List Char)
  | [] => [[]]
  | c :: cs =>
    if c == ',' then [] :: asmSplit cs
    else match asmSplit cs with
      | [] => [[c]]
      | x :: xs => (c :: x) :: xs

/-- The value of a digit in base 10 or 16. -/
def asmDigit (base : Nat) (c : Char) : Option Nat :=
  let v := if '0' ≤ c ∧ c ≤ '9' then c.toNat - 48
    else if 'a' ≤ c ∧ c ≤ 'f' then c.toNat - 87
    else if 'A' ≤ c ∧ c ≤ 'F' then c.toNat - 55
    else base
  if v < base then some v else none

/-- At least one digit, most significant first. -/
def asmDigits (base : Nat) (cs : List Char) : Option Nat :=
  if cs = [] then none
  else cs.foldl (fun acc c => do return (← acc) * base + (← asmDigit base c)) (some 0)

/-- Decimal or `0x` hexadecimal. -/
def asmNat : List Char → Option Nat
  | '0' :: 'x' :: cs => asmDigits 16 cs
  | cs => asmDigits 10 cs

/-- A leading `-` makes it negative. -/
def asmInt : List Char → Option Int
  | '-' :: cs => (asmNat cs).map fun v => -(v : Int)
  | cs => (asmNat cs).map fun v => (v : Int)

/-- The operands of a line, separated by commas. -/
def asmOperands (cs : List Char) : Option (List Int) :=
  if cs = [] then some [] else (asmSplit cs).mapM fun x => asmInt (asmTrim x)

/-- One line to its command; nothing where the line is no command of R56. -/
def assembleChars (cs : List Char) : Option Instr := do
  let line := asmTrim cs
  let operands ← asmOperands (asmTrim (line.dropWhile fun c => !asmBlank c))
  assemble (String.ofList (line.takeWhile fun c => !asmBlank c)) operands

/-- One line to its command word. -/
def assembleLine (line : String) : Option CmdWord := (assembleChars line.toList).map encode

end Sys2Proof.Machine
end

