-- ==== Sys2Proof/Machine/Flags.lean ====
section
/-! DEFINITION. The outputs that are functions of the state: `busy`, `cmd_ready` (R22), the read port (R27), the
constant outputs (R24), all of them together (R25), the least duration of a step (R60), and what the chips show (R44,
R108). -/

namespace Sys2Proof.Machine

/-- R22: `busy = (phase ≠ IDLE)`. -/
def State.busy (s : State) : Bool := s.phase != .idle

/-- R22: `cmd_ready = (phase = IDLE) ∧ ¬rst`. -/
def State.cmdReady (s : State) : Bool := s.phase == .idle && !s.rst

/-- R27: `FB[fb_rd_row][fb_rd_chip]` if `fb_rd_chip < N`, else 0x00. -/
def State.fbRdData (s : State) (row : BitVec 3) (chip : Byte) : Byte :=
  if chip.toNat < s.cfg.n then s.fbRead row.toNat chip.toNat else 0x00

/-- R24: `cfg_amount[7:0] = N`. -/
def State.cfgAmount (s : State) : Byte := BitVec.ofNat 8 s.cfg.n

/-- R24: `cfg_orient[7:0] = ORIENT`. -/
def State.cfgOrient (s : State) : Byte := s.cfg.orient

/-- The output ports of R25. -/
structure Outputs where
  cmdReady : Bool
  busy : Bool
  ill : Bool
  illCause : BitVec 2
  illWord : CmdWord
  fbRdData : Byte
  cfgAmount : Byte
  cfgOrient : Byte
  cs : Bool
  clk : Bool
  din : Bool
  deriving DecidableEq, Repr

/-- The block's outputs while the host drives `fb_rd_row` and `fb_rd_chip`. -/
def State.outputs (s : State) (row : BitVec 3) (chip : Byte) : Outputs :=
  { cmdReady := s.cmdReady, busy := s.busy, ill := s.ill, illCause := s.illCause, illWord := s.illWord,
    fbRdData := s.fbRdData row chip, cfgAmount := s.cfgAmount, cfgOrient := s.cfgOrient,
    cs := s.cs, clk := s.clk, din := s.din }

/-- The least time the step from `s` lasts, as far as the spec bounds it (R60; log entry 8). -/
def State.stepMinDuration (s : State) : Nat :=
  if s.busy && !s.rst then (s.ev[s.pc]?.map eventMinDuration).getD 0 else 0

/-- The lit columns of row `r` of the chip at position `p`, by the register meanings of R44 (and C4: a chip in shutdown
displays nothing): all under display-test (R108), none in shutdown, else the row register if the chip decodes nothing
and scans all rows; nothing is said (`none`) of a chip set otherwise (log entry 6). -/
def chainShows (chain : List Chip) (p r : Nat) : Option Byte :=
  if chainReg chain p 0xF = 0x01 then some 0xFF
  else if chainReg chain p 0xF ≠ 0x00 then none
  else if chainReg chain p 0xC = 0x00 then some 0x00
  else if chainReg chain p 0xC = 0x01 ∧ chainReg chain p 0x9 = 0x00 ∧ chainReg chain p 0xB = 0x07 then
    some (chainReg chain p (r + 1))
  else none

end Sys2Proof.Machine
end

