-- ==== Sys2Proof/Safety.lean ====
section
/-! DEFINITION. The terms claims are made in: a reader of the wire, the framing discipline, the invariants of a safe run. -/

namespace Sys2Proof.Machine

/-! ## Reading the wire (R55): a receiver that knows only the pins -/

/-- The bits of each chip-select frame of an event list, in the order of their CLK rising edges. The first three
arguments are the pin levels before the list, `acc` the bits already received in an open frame. A frame opens at a CS
falling edge, takes DIN at each CLK rising edge while CS = 0, and closes at a CS rising edge. -/
def readFrames (cs clk din : Bool) (acc : List Bool) : List Event → List (List Bool)
  | [] => []
  | .cs l :: es =>
    if cs && !l then readFrames l clk din [] es
    else if !cs && l then acc :: readFrames l clk din [] es
    else readFrames l clk din acc es
  | .clk l :: es =>
    if l && !clk && !cs then readFrames cs l din (acc ++ [din]) es
    else readFrames cs l din acc es
  | .din l :: es => readFrames cs clk l acc es
  | .wait _ :: es => readFrames cs clk din acc es

/-- The frames a list puts on the wire from idle levels (CS = 1, CLK = 0), whatever DIN was. -/
def wireFrames (din : Bool) (es : List Event) : List (List Bool) := readFrames true false din [] es

/-- The 16 bits of the word `{reg, value}`, bit 15 first (R35, R55). -/
def wordBits (reg value : Byte) : List Bool :=
  (List.range 16).map fun i => (reg ++ value).getLsbD (15 - i)

/-- The bits of one register group: register byte `reg` with `vals j` for chip index `j = 0..n-1` (R36, R65). -/
def groupBits (n : Nat) (reg : Byte) (vals : Nat → Byte) : List Bool :=
  (List.range n).flatMap fun j => wordBits reg (vals j)

/-! ## The framing discipline (R70) -/

/-- From levels `cs`, `clk`: CS and CLK events alternate, CS moves only while CLK = 0, CLK moves only while CS = 0, and
the list ends with CS = 1, CLK = 0. -/
def framed (cs clk : Bool) : List Event → Bool
  | [] => cs && !clk
  | .cs l :: es => (cs != l) && !clk && framed l clk es
  | .clk l :: es => !cs && (clk != l) && framed cs l es
  | .din _ :: es => framed cs clk es
  | .wait _ :: es => framed cs clk es

/-! ## Invariants -/

/-- R21, R59, R70: an event is left exactly while `INIT` or `BUSY`, and the events left keep the framing discipline from
the levels the pins now have. -/
structure SequencerInv (s : State) : Prop where
  running : s.phase ≠ .idle → s.pc < s.ev.length
  finished : s.phase = .idle → s.pc = s.ev.length
  discipline : framed s.cs s.clk (s.ev.drop s.pc) = true

/-- R23: nothing recorded while `ill = 0`; else a word that spells no command, with its cause. -/
def StatusInv (s : State) : Prop :=
  (s.ill = false → s.illCause = 0b00 ∧ s.illWord = 0) ∧
  (s.ill = true →
    (s.illCause = 0b01 ∧ decode s.illWord = .instr (.reserved s.illWord)) ∨
    (s.illCause = 0b10 ∧ decode s.illWord = .rejected .reservedField))

/-- R16: memory is canonical and every listed cell is one of the 8·N cells. -/
def FramebufferInv (s : State) : Prop :=
  s.fb.wf ∧ ∀ c ∈ s.fb, ∃ r j, r < 8 ∧ j < s.cfg.n ∧ c.1 = fbAddr r j

/-- R44: `N` chips, each with canonical registers at addresses 0x1..0xF. -/
def ChainInv (s : State) : Prop :=
  s.chain.length = s.cfg.n ∧ ∀ c ∈ s.chain, c.regs.wf ∧ ∀ x ∈ c.regs, 1 ≤ x.1 ∧ x.1 ≤ 15

/-- The state once the events left in the list have been performed (pins and chips; `pc` and `phase` stay). -/
def State.settled (s : State) : State := performEvents s (s.ev.drop s.pc)

/-- R46: once the events left have been performed, chip position `p` shows chip index `N - p` in every row register.
While `IDLE` no event is left, so the chips show the framebuffer now. -/
def ChainShowsFramebuffer (s : State) : Prop :=
  ∀ r, r < 8 → ∀ p, 1 ≤ p → p ≤ s.cfg.n →
    chainReg s.settled.chain p (r + 1) = s.fbRead r (s.cfg.n - p)

/-- R46 in every configuration a reset can sample. -/
def GroupChainInv (s : State) : Prop := s.cfg.cadence = .group → ChainShowsFramebuffer s

/-! ## Runs -/

/-- `k` steps, stopping at the first fault or refusal. -/
def runSteps : Nat → State → Host.Outcome State Fault Refusal
  | 0, s => .next s
  | k + 1, s =>
    match step s with
    | .next t => runSteps k t
    | .fault f => .fault f
    | .refused r => .refused r

/-! ## Frames: what a command leaves alone -/

/-- Everything but `FB`, `ev`, `pc` and `phase` is the same. -/
structure KeepsTheRest (s t : State) : Prop where
  cs : t.cs = s.cs
  clk : t.clk = s.clk
  din : t.din = s.din
  cmd : t.cmd = s.cmd
  ill : t.ill = s.ill
  illCause : t.illCause = s.illCause
  illWord : t.illWord = s.illWord
  cfg : t.cfg = s.cfg
  chain : t.chain = s.chain
  host : t.host = s.host
  free : t.free = s.free

/-- R76: `BUSY` at the start of the full flush of the framebuffer as `t` has it; the rest is as in `s`. -/
structure FlushesFrom (s t : State) : Prop where
  phase : t.phase = .busy
  pc : t.pc = 0
  ev : t.ev = writeDisplay s.cfg t.fb
  rest : KeepsTheRest s t

/-- R88: only the error status can differ. -/
structure KeepsAllButStatus (s t : State) : Prop where
  fb : t.fb = s.fb
  cs : t.cs = s.cs
  clk : t.clk = s.clk
  din : t.din = s.din
  phase : t.phase = s.phase
  cmd : t.cmd = s.cmd
  ev : t.ev = s.ev
  pc : t.pc = s.pc
  cfg : t.cfg = s.cfg
  chain : t.chain = s.chain
  host : t.host = s.host
  free : t.free = s.free

/-! ## Small terms of single claims -/

/-- The bits R53 lets each command ignore. -/
def ignoredBits (op : BitVec 4) : CmdWord :=
  if op = 0x0#4 then 0xFFFFFFFFFFFFFFFF0000FFFFFFFF0000#128
  else if op = 0x1#4 then 0xFFFFFFFFFFFFFFFF0000FFFF00000000#128
  else if op = 0x2#4 then 0xFFFFFFFFFFFFFFFF0000FFFFFF000000#128
  else if op = 0x3#4 then 0xFFFFFFFFFFFFFFFF0000FFFF00FF0000#128
  else if op = 0x4#4 then 0xFFFFFFFFFFFFFFFF00000000FF000000#128
  else if op = 0x5#4 then 0xFFFFFFFFFFFFFFFF0000000000FF0000#128
  else if op = 0x6#4 then 0x00000000000000000000FFFFFFFF0000#128
  else if op = 0x7#4 then 0xFFFFFFFFFFFFFFFF0000FFFFFFFFFF00#128
  else 0x0#128

/-- The same with another orientation flag (R7), the moves that sample parameters included. -/
def HostMove.withOrient (o : Byte) : HostMove → HostMove
  | .reset c => .reset { c with orient := o }
  | .quiet => .quiet
  | .offer w => .offer w
  | .hold w => .hold w
def State.withOrient (s : State) (o : Byte) : State :=
  { s with cfg := { s.cfg with orient := o }, host := s.host.map (HostMove.withOrient o) }

/-- The operand ranges of R56. -/
abbrev isU8 (x : Int) : Prop := 0 ≤ x ∧ x ≤ 255
abbrev isS8 (x : Int) : Prop := -128 ≤ x ∧ x ≤ 127

end Sys2Proof.Machine
end

