-- ==== Sys2Proof/Certificates/Slice0/Obligations.lean ====
section
/-! DEFINITION. What is claimed of the block, for the provers. -/

open Sys2Proof Sys2Proof.Machine

/-! ## Decoding, encoding, the assembler -/

/-- R47 to R51: decoding the word of a well-formed command gives the command back, every operand at every value. -/
def Obligations.DecodeEncodeRoundTrip : Prop :=
  ∀ i : Instr, i.wellFormed = true → decode (encode i) = .instr i

/-- R54 with the fields of R47 to R49 and the map of R50, every field by its bits. A reserved opcode is looked at before
the reserved fields; both are rejected with their cause in acceptance. -/
def Obligations.DecodeFollowsTheStatedOrder : Prop :=
  ∀ (w : CmdWord) (s : State),
    (w.getLsbD 3 = true → accept w s = .next (raiseIll .reservedOpcode w { s with cmd := w })) ∧
    (w.getLsbD 3 = false → (w.extractLsb' 4 4 ≠ 0#4 ∨ w.extractLsb' 48 16 ≠ 0#16) →
      accept w s = .next (raiseIll .reservedField w { s with cmd := w })) ∧
    (w.extractLsb' 4 4 = 0#4 → w.extractLsb' 48 16 = 0#16 →
      (w.extractLsb' 0 4 = 0x0#4 → decode w = .instr (.clear (w.extractLsb' 8 8))) ∧
      (w.extractLsb' 0 4 = 0x1#4 →
        decode w = .instr (.turnOn (w.extractLsb' 16 8) (w.extractLsb' 24 8) (w.extractLsb' 8 8))) ∧
      (w.extractLsb' 0 4 = 0x2#4 → decode w = .instr (.onColumn (w.extractLsb' 16 8) (w.extractLsb' 8 8))) ∧
      (w.extractLsb' 0 4 = 0x3#4 → decode w = .instr (.onRow (w.extractLsb' 24 8) (w.extractLsb' 8 8))) ∧
      (w.extractLsb' 0 4 = 0x4#4 → decode w = .instr (.customColumn (w.extractLsb' 32 8) (w.extractLsb' 16 8)
        (w.extractLsb' 8 8) (w.extractLsb' 40 8))) ∧
      (w.extractLsb' 0 4 = 0x5#4 → decode w = .instr (.customRow (w.extractLsb' 32 8) (w.extractLsb' 24 8)
        (w.extractLsb' 8 8) (w.extractLsb' 40 8))) ∧
      (w.extractLsb' 0 4 = 0x6#4 → decode w = .instr (.symbol (w.extractLsb' 64 8) (w.extractLsb' 72 8)
        (w.extractLsb' 80 8) (w.extractLsb' 88 8) (w.extractLsb' 96 8) (w.extractLsb' 104 8)
        (w.extractLsb' 112 8) (w.extractLsb' 120 8) (w.extractLsb' 8 8))) ∧
      (w.extractLsb' 0 4 = 0x7#4 → decode w = .instr .test))

/-- The rows of spec/opcode_table.json: a word that matches a row's mask and match decodes to that row's constructor, and
a word that matches no row is rejected with cause 0b10 (R50, R51, R52). -/
def Obligations.TableRowsSelectTheirCommand : Prop :=
  ∀ w : CmdWord,
    (w &&& 0x0000000000000000FFFF0000000000FF#128 = 0x0#128 → ∃ n, decode w = .instr (.clear n)) ∧
    (w &&& 0x0000000000000000FFFF0000000000FF#128 = 0x1#128 → ∃ c r n, decode w = .instr (.turnOn c r n)) ∧
    (w &&& 0x0000000000000000FFFF0000000000FF#128 = 0x2#128 → ∃ c n, decode w = .instr (.onColumn c n)) ∧
    (w &&& 0x0000000000000000FFFF0000000000FF#128 = 0x3#128 → ∃ r n, decode w = .instr (.onRow r n)) ∧
    (w &&& 0x0000000000000000FFFF0000000000FF#128 = 0x4#128 →
      ∃ d c n h, decode w = .instr (.customColumn d c n h)) ∧
    (w &&& 0x0000000000000000FFFF0000000000FF#128 = 0x5#128 →
      ∃ d r n h, decode w = .instr (.customRow d r n h)) ∧
    (w &&& 0x0000000000000000FFFF0000000000FF#128 = 0x6#128 →
      ∃ b0 b1 b2 b3 b4 b5 b6 b7 n, decode w = .instr (.symbol b0 b1 b2 b3 b4 b5 b6 b7 n)) ∧
    (w &&& 0x0000000000000000FFFF0000000000FF#128 = 0x7#128 → decode w = .instr .test) ∧
    (w &&& 0x8#128 = 0x8#128 → decode w = .instr (.reserved w)) ∧
    (w &&& 0x8#128 = 0x0#128 → w &&& 0x0000000000000000FFFF0000000000F0#128 ≠ 0x0#128 →
      decode w = .rejected .reservedField)

/-- R53: two accepted words that differ only in fields their opcode does not use do the same (but for the latched word
itself, which is never observable: R20). -/
def Obligations.UnusedFieldsHaveNoEffect : Prop :=
  ∀ (w x : CmdWord) (s : State), w.getLsbD 3 = false → w.extractLsb' 4 4 = 0#4 → w.extractLsb' 48 16 = 0#16 →
    ∃ i t, decode w = .instr i ∧ decode (w ^^^ (x &&& ignoredBits (w.extractLsb' 0 4))) = .instr i ∧
      accept w s = .next t ∧
      accept (w ^^^ (x &&& ignoredBits (w.extractLsb' 0 4))) s =
        .next { t with cmd := w ^^^ (x &&& ignoredBits (w.extractLsb' 0 4)) }

/-- Words written out in 95_test_vectors.md (L2.3, L2.4). -/
def Obligations.WrittenOutWordsDecode : Prop :=
  decode 0xFFFFFFFFFFFFFFFF0000000000000000 = .instr (.clear 0) ∧
  decode 0x0000000002030101 = .instr (.turnOn 3 2 1) ∧
  decode 0x0000000000070202 = .instr (.onColumn 7 2) ∧
  decode 0x0000000007000203 = .instr (.onRow 7 2) ∧
  decode 0x0000018100020104 = .instr (.customColumn 0x81 2 1 1) ∧
  decode 0x0000FE0F07000105 = .instr (.customRow 0x0F 7 1 0xFE) ∧
  decode 0x3C4299A581A5423C0000000000000206 =
    .instr (.symbol 0x3C 0x42 0xA5 0x81 0xA5 0x99 0x42 0x3C 2) ∧
  decode 0x0000AABBCCDD1107 = .instr .test ∧
  decode 0x000100000000000F = .instr (.reserved 0x000100000000000F) ∧
  decode 0x8000000000000001 = .rejected .reservedField

/-- R56, the full form of every command: assembled exactly when each operand is in the range R56 gives it, and then each
operand byte reads back (signed or unsigned, R49) as the number written. -/
def Obligations.AssembledOperandsReadBack : Prop :=
  (∀ nth : Int, if isU8 nth then ∃ n : Byte, (n.toNat : Int) = nth ∧ assemble "clear" [nth] = some (.clear n)
    else assemble "clear" [nth] = none) ∧
  (∀ col row nth : Int, if isS8 col ∧ isS8 row ∧ isU8 nth then
    ∃ c r n : Byte, c.toInt = col ∧ r.toInt = row ∧ (n.toNat : Int) = nth ∧
      assemble "turnOn" [col, row, nth] = some (.turnOn c r n)
    else assemble "turnOn" [col, row, nth] = none) ∧
  (∀ col nth : Int, if isS8 col ∧ isU8 nth then
    ∃ c n : Byte, c.toInt = col ∧ (n.toNat : Int) = nth ∧ assemble "onColumn" [col, nth] = some (.onColumn c n)
    else assemble "onColumn" [col, nth] = none) ∧
  (∀ row nth : Int, if isS8 row ∧ isU8 nth then
    ∃ r n : Byte, r.toInt = row ∧ (n.toNat : Int) = nth ∧ assemble "onRow" [row, nth] = some (.onRow r n)
    else assemble "onRow" [row, nth] = none) ∧
  (∀ data col nth shift : Int, if isU8 data ∧ isS8 col ∧ isU8 nth ∧ isS8 shift then
    ∃ d c n h : Byte, (d.toNat : Int) = data ∧ c.toInt = col ∧ (n.toNat : Int) = nth ∧ h.toInt = shift ∧
      assemble "customColumn" [data, col, nth, shift] = some (.customColumn d c n h)
    else assemble "customColumn" [data, col, nth, shift] = none) ∧
  (∀ data row nth shift : Int, if isU8 data ∧ isS8 row ∧ isU8 nth ∧ isS8 shift then
    ∃ d r n h : Byte, (d.toNat : Int) = data ∧ r.toInt = row ∧ (n.toNat : Int) = nth ∧ h.toInt = shift ∧
      assemble "customRow" [data, row, nth, shift] = some (.customRow d r n h)
    else assemble "customRow" [data, row, nth, shift] = none) ∧
  (∀ x0 x1 x2 x3 x4 x5 x6 x7 nth : Int,
    if isU8 x0 ∧ isU8 x1 ∧ isU8 x2 ∧ isU8 x3 ∧ isU8 x4 ∧ isU8 x5 ∧ isU8 x6 ∧ isU8 x7 ∧ isU8 nth then
    ∃ b0 b1 b2 b3 b4 b5 b6 b7 n : Byte, (b0.toNat : Int) = x0 ∧ (b1.toNat : Int) = x1 ∧
      (b2.toNat : Int) = x2 ∧ (b3.toNat : Int) = x3 ∧ (b4.toNat : Int) = x4 ∧ (b5.toNat : Int) = x5 ∧
      (b6.toNat : Int) = x6 ∧ (b7.toNat : Int) = x7 ∧ (n.toNat : Int) = nth ∧
      assemble "symbol" [x0, x1, x2, x3, x4, x5, x6, x7, nth] = some (.symbol b0 b1 b2 b3 b4 b5 b6 b7 n)
    else assemble "symbol" [x0, x1, x2, x3, x4, x5, x6, x7, nth] = none) ∧
  assemble "test" [] = some .test

/-- R57: an omitted `nth` or `shift` is 0. -/
def Obligations.OmittedOperandsAreZero : Prop :=
  assemble "clear" [] = assemble "clear" [0] ∧
  (∀ a b : Int, assemble "turnOn" [a, b] = assemble "turnOn" [a, b, 0]) ∧
  (∀ a : Int, assemble "onColumn" [a] = assemble "onColumn" [a, 0]) ∧
  (∀ a : Int, assemble "onRow" [a] = assemble "onRow" [a, 0]) ∧
  (∀ a b : Int, assemble "customColumn" [a, b] = assemble "customColumn" [a, b, 0, 0]) ∧
  (∀ a b n : Int, assemble "customColumn" [a, b, n] = assemble "customColumn" [a, b, n, 0]) ∧
  (∀ a b : Int, assemble "customRow" [a, b] = assemble "customRow" [a, b, 0, 0]) ∧
  (∀ a b n : Int, assemble "customRow" [a, b, n] = assemble "customRow" [a, b, n, 0]) ∧
  (∀ a b c d e f g h : Int,
    assemble "symbol" [a, b, c, d, e, f, g, h] = assemble "symbol" [a, b, c, d, e, f, g, h, 0])

/-! ## Operand normalisation -/

/-- R73, and that `COL` and `ROW` operands count only through the clamp. -/
def Obligations.RowsAndColumnsAreClamped : Prop :=
  (∀ v : Byte, (v.toInt < 0 → clamp07 v = 0) ∧ (0 ≤ v.toInt → v.toInt ≤ 7 → (clamp07 v : Int) = v.toInt) ∧
    (7 < v.toInt → clamp07 v = 7)) ∧
  (∀ (c c' r r' nth data shift : Byte) (s : State), clamp07 c = clamp07 c' → clamp07 r = clamp07 r' →
    exec (.turnOn c r nth) s = exec (.turnOn c' r' nth) s ∧
    exec (.onColumn c nth) s = exec (.onColumn c' nth) s ∧
    exec (.onRow r nth) s = exec (.onRow r' nth) s ∧
    exec (.customColumn data c nth shift) s = exec (.customColumn data c' nth shift) s ∧
    exec (.customRow data r nth shift) s = exec (.customRow data r' nth shift) s)

/-- R74 bit by bit: the amount is clamped to 7, bits shifted out are discarded, zeros come in. -/
def Obligations.ShiftClampsAndDiscards : Prop :=
  ∀ v s : Byte,
    (0 < s.toInt → ∀ i, i < 8 → (adjustShift v s).getLsbD i =
      (decide ((min 7 s.toInt).toNat ≤ i) && v.getLsbD (i - (min 7 s.toInt).toNat))) ∧
    (s.toInt < 0 → ∀ i, i < 8 → (adjustShift v s).getLsbD i = v.getLsbD (i + (min 7 (-s.toInt)).toNat)) ∧
    (s.toInt = 0 → adjustShift v s = v)

/-- R75: 0 is chip index 0, `k ≥ 1` is `k - 1` up to the last chip, and no index leaves the chain. -/
def Obligations.ChipSelectorStaysInTheChain : Prop :=
  ∀ (n : Nat) (nth : Byte), 1 ≤ n →
    chipIndex n 0 = 0 ∧ (1 ≤ nth.toNat → nth.toNat ≤ n → chipIndex n nth = nth.toNat - 1) ∧
    (n < nth.toNat → chipIndex n nth = n - 1) ∧ chipIndex n nth < n

/-! ## The commands -/

/-- R77: `NTH = 0` makes all 8·N cells 0x00, `NTH ≥ 1` the eight rows of the selected chip; every other address keeps its
value; full flush. -/
def Obligations.ClearZeroesAllOrOneChip : Prop :=
  (∀ s : State, ∃ t, exec (.clear 0) s = .next t ∧
    (∀ r j, r < 8 → j < s.cfg.n → t.fbRead r j = 0x00) ∧
    (∀ a, (∀ r j, r < 8 → j < s.cfg.n → a ≠ fbAddr r j) → t.fb.read a = s.fb.read a) ∧
    FlushesFrom s t) ∧
  ∀ (nth : Byte) (s : State), nth ≠ 0 → ∃ t, exec (.clear nth) s = .next t ∧
    (∀ r, r < 8 → t.fbRead r (chipIndex s.cfg.n nth) = 0x00) ∧
    (∀ a, (∀ r, r < 8 → a ≠ fbAddr r (chipIndex s.cfg.n nth)) → t.fb.read a = s.fb.read a) ∧
    FlushesFrom s t

/-- R78: the selected row byte has exactly the clamped column's bit; nothing else changes; full flush. -/
def Obligations.TurnOnLeavesExactlyOneBit : Prop :=
  ∀ (col row nth : Byte) (s : State), ∃ t, exec (.turnOn col row nth) s = .next t ∧
    (∀ i, i < 8 → (t.fbRead (clamp07 row) (chipIndex s.cfg.n nth)).getLsbD i = decide (i = clamp07 col)) ∧
    (∀ a, a ≠ fbAddr (clamp07 row) (chipIndex s.cfg.n nth) → t.fb.read a = s.fb.read a) ∧
    FlushesFrom s t

/-- R79: the clamped column's bit is set in all eight rows of the selected chip, the other columns keep their values. -/
def Obligations.OnColumnSetsTheColumnInEveryRow : Prop :=
  ∀ (col nth : Byte) (s : State), ∃ t, exec (.onColumn col nth) s = .next t ∧
    (∀ r, r < 8 → ∀ i, i < 8 → (t.fbRead r (chipIndex s.cfg.n nth)).getLsbD i =
      ((s.fbRead r (chipIndex s.cfg.n nth)).getLsbD i || decide (i = clamp07 col))) ∧
    (∀ a, (∀ r, r < 8 → a ≠ fbAddr r (chipIndex s.cfg.n nth)) → t.fb.read a = s.fb.read a) ∧
    FlushesFrom s t

/-- R80: the selected row byte becomes 0xFF. -/
def Obligations.OnRowLightsTheRow : Prop :=
  ∀ (row nth : Byte) (s : State), ∃ t, exec (.onRow row nth) s = .next t ∧
    t.fbRead (clamp07 row) (chipIndex s.cfg.n nth) = 0xFF ∧
    (∀ a, a ≠ fbAddr (clamp07 row) (chipIndex s.cfg.n nth) → t.fb.read a = s.fb.read a) ∧
    FlushesFrom s t

/-- R81: where bit `r` of the shifted byte is set, row `r` of the selected chip gains the column's bit; every other bit
keeps its value. -/
def Obligations.CustomColumnAddsThePattern : Prop :=
  ∀ (data col nth shift : Byte) (s : State), ∃ t, exec (.customColumn data col nth shift) s = .next t ∧
    (∀ r, r < 8 → ∀ i, i < 8 → (t.fbRead r (chipIndex s.cfg.n nth)).getLsbD i =
      ((s.fbRead r (chipIndex s.cfg.n nth)).getLsbD i ||
        (decide (i = clamp07 col) && (adjustShift data shift).getLsbD r))) ∧
    (∀ a, (∀ r, r < 8 → a ≠ fbAddr r (chipIndex s.cfg.n nth)) → t.fb.read a = s.fb.read a) ∧
    FlushesFrom s t

/-- R82: the selected row byte is overwritten by the shifted byte. -/
def Obligations.CustomRowOverwritesTheRow : Prop :=
  ∀ (data row nth shift : Byte) (s : State), ∃ t, exec (.customRow data row nth shift) s = .next t ∧
    t.fbRead (clamp07 row) (chipIndex s.cfg.n nth) = adjustShift data shift ∧
    (∀ a, a ≠ fbAddr (clamp07 row) (chipIndex s.cfg.n nth) → t.fb.read a = s.fb.read a) ∧
    FlushesFrom s t

/-- R83: the eight bytes become the eight rows of the selected chip, byte `i` row `i`. -/
def Obligations.SymbolStoresItsBytesVerbatim : Prop :=
  ∀ (b0 b1 b2 b3 b4 b5 b6 b7 nth : Byte) (s : State), ∃ t,
    exec (.symbol b0 b1 b2 b3 b4 b5 b6 b7 nth) s = .next t ∧
    (t.fbRead 0 (chipIndex s.cfg.n nth) = b0 ∧ t.fbRead 1 (chipIndex s.cfg.n nth) = b1 ∧
      t.fbRead 2 (chipIndex s.cfg.n nth) = b2 ∧ t.fbRead 3 (chipIndex s.cfg.n nth) = b3 ∧
      t.fbRead 4 (chipIndex s.cfg.n nth) = b4 ∧ t.fbRead 5 (chipIndex s.cfg.n nth) = b5 ∧
      t.fbRead 6 (chipIndex s.cfg.n nth) = b6 ∧ t.fbRead 7 (chipIndex s.cfg.n nth) = b7) ∧
    (∀ a, (∀ r, r < 8 → a ≠ fbAddr r (chipIndex s.cfg.n nth)) → t.fb.read a = s.fb.read a) ∧
    FlushesFrom s t

/-- R84: display-test 1 to every chip, a pause, display-test 0, a pause; the framebuffer is as before. -/
def Obligations.DisplayTestLeavesTheFramebuffer : Prop :=
  ∀ s : State, ∃ t, exec .test s = .next t ∧ t.fb = s.fb ∧ t.phase = .busy ∧ t.pc = 0 ∧
    t.ev = frames s.cfg.cadence .other [bcast s.cfg.n 0x0F 0x01] ++ [.wait .pause] ++
      frames s.cfg.cadence .other [bcast s.cfg.n 0x0F 0x00] ++ [.wait .pause] ∧
    KeepsTheRest s t

/-- R51, R88: the whole effect of a reserved opcode is the rejection, recorded if it is the first. -/
def Obligations.ReservedOpcodeIsRejected : Prop :=
  ∀ (w : CmdWord) (s : State), ∃ t, exec (.reserved w) s = .next t ∧ KeepsAllButStatus s t ∧ t.ill = true ∧
    (s.ill = false → t.illCause = 0b01 ∧ t.illWord = w) ∧
    (s.ill = true → t.illCause = s.illCause ∧ t.illWord = s.illWord)

/-! ## Acceptance, rejection, the handshake -/

/-- R26: an offered word is latched and taken in `IDLE`; the decoded command runs, or the word is rejected. -/
def Obligations.StepRunsTheAcceptedCommand : Prop :=
  ∀ (s : State) (w : CmdWord) (h : List HostMove), s.cfg.ok = true → s.phase = .idle →
    (s.host = .offer w :: h ∨ s.host = .hold w :: h) →
    (∀ i, decode w = .instr i → step s = exec i { s with cmd := w, host := h }) ∧
    (∀ c, decode w = .rejected c → step s = .next (raiseIll c w { s with cmd := w, host := h }))

/-- R88 for every word that spells no command: consumed in one step with nothing but the error status changed, and that
only by the first rejection after reset. -/
def Obligations.RejectedWordHasNoOtherEffect : Prop :=
  ∀ (s : State) (w : CmdWord) (h : List HostMove) (c : IllCause), s.cfg.ok = true → s.phase = .idle →
    (s.host = .offer w :: h ∨ s.host = .hold w :: h) →
    (decode w = .instr (.reserved w) ∧ c = .reservedOpcode ∨
      decode w = .rejected .reservedField ∧ c = .reservedField) →
    ∃ t, step s = .next t ∧ t.fb = s.fb ∧ t.cs = s.cs ∧ t.clk = s.clk ∧ t.din = s.din ∧ t.ev = s.ev ∧
      t.pc = s.pc ∧ t.phase = .idle ∧ t.chain = s.chain ∧ t.cfg = s.cfg ∧ t.free = s.free ∧
      t.host = h ∧ t.ill = true ∧
      (s.ill = false → t.illCause = c.code ∧ t.illWord = w) ∧
      (s.ill = true → t.illCause = s.illCause ∧ t.illWord = s.illWord)

/-- R23, R89: once set, the error status stays as it is in every step without reset, whatever is offered. -/
def Obligations.ErrorStatusIsSticky : Prop :=
  ∀ s t : State, step s = .next t → s.rst = false → s.ill = true →
    t.ill = true ∧ t.illCause = s.illCause ∧ t.illWord = s.illWord

/-- R26, R41: in `IDLE` without a word nothing happens. -/
def Obligations.IdleWithoutWordChangesNothing : Prop :=
  ∀ (s : State) (h : List HostMove), s.cfg.ok = true → s.phase = .idle →
    (s.host = .quiet :: h ∨ s.host = [] ∧ h = []) → step s = .next { s with host := h }

/-- R26, R106: while `INIT` or `BUSY` an offered word is not taken; a held word stays on the port, a word offered for one
step is gone, and neither has any effect. -/
def Obligations.WordsWaitWhileBusy : Prop :=
  ∀ (s t : State) (w : CmdWord) (h : List HostMove), s.phase ≠ .idle → step s = .next t →
    (s.host = .hold w :: h → t.host = s.host ∧ t.fb = s.fb ∧ t.cmd = s.cmd ∧ t.ill = s.ill ∧
      t.illCause = s.illCause ∧ t.illWord = s.illWord ∧ t.ev = s.ev) ∧
    (s.host = .offer w :: h → t.host = h ∧ t.fb = s.fb ∧ t.cmd = s.cmd ∧ t.ill = s.ill ∧
      t.illCause = s.illCause ∧ t.illWord = s.illWord ∧ t.ev = s.ev)

/-! ## Events and pins -/

/-- R59: one event per step, in list order; the step of a wait lasts at least that wait's time. -/
def Obligations.OneEventPerStep : Prop :=
  ∀ (s : State) (e : Event), s.cfg.ok = true → s.rst = false → s.phase ≠ .idle → s.ev[s.pc]? = some e →
    ∃ t, step s = .next t ∧ t.pc = s.pc + 1 ∧
      t.phase = (if s.pc + 1 = s.ev.length then .idle else s.phase) ∧
      (∀ l, e = .cs l → t.cs = l ∧ t.clk = s.clk ∧ t.din = s.din) ∧
      (∀ l, e = .clk l → t.cs = s.cs ∧ t.clk = l ∧ t.din = s.din) ∧
      (∀ l, e = .din l → t.cs = s.cs ∧ t.clk = s.clk ∧ t.din = l) ∧
      (∀ k, e = .wait k → t.cs = s.cs ∧ t.clk = s.clk ∧ t.din = s.din) ∧
      t.fb = s.fb ∧ t.ev = s.ev ∧ t.cmd = s.cmd ∧ t.ill = s.ill ∧ t.illCause = s.illCause ∧
      t.illWord = s.illWord ∧ t.cfg = s.cfg ∧ s.stepMinDuration = eventMinDuration e

/-- R18, R59: a pin changes only by an event that names it, or at reset. -/
def Obligations.PinsMoveOnlyByTheirEvents : Prop :=
  ∀ s t : State, step s = .next t → s.rst = false →
    (t.cs ≠ s.cs → s.phase ≠ .idle ∧ s.ev[s.pc]? = some (.cs t.cs)) ∧
    (t.clk ≠ s.clk → s.phase ≠ .idle ∧ s.ev[s.pc]? = some (.clk t.clk)) ∧
    (t.din ≠ s.din → s.phase ≠ .idle ∧ s.ev[s.pc]? = some (.din t.din))

/-- R61 to R64: the exact events of one frame around any pairs: CS low and the settle wait; for each bit of each
`{reg, value}`, bit 15 first, DIN, CLK high, CLK low; CS high. -/
def Obligations.FrameEventsAreExact : Prop :=
  ∀ ps : List WirePair, frame ps =
    [.cs false, .wait .settle] ++
    ps.flatMap (fun p => (wordBits p.reg p.value).flatMap fun b => [.din b, .clk true, .clk false]) ++
    [.cs true]

/-- R69 under each cadence of R66 to R68, read off the wire: registers 1..8, each with the row's bytes in ascending chip
index; one frame per group, one per pair, or one for the flush. -/
def Obligations.FlushOnTheWire : Prop :=
  ∀ (cfg : Config) (fb : Memory) (d : Bool),
    (cfg.cadence = .group → wireFrames d (writeDisplay cfg fb) =
      (List.range 8).map fun i => groupBits cfg.n (BitVec.ofNat 8 (i + 1)) fun j => fb.read (fbAddr i j)) ∧
    (cfg.cadence = .pair → wireFrames d (writeDisplay cfg fb) =
      (List.range 8).flatMap fun i => (List.range cfg.n).map fun j =>
        wordBits (BitVec.ofNat 8 (i + 1)) (fb.read (fbAddr i j))) ∧
    (cfg.cadence = .flush → wireFrames d (writeDisplay cfg fb) =
      [(List.range 8).flatMap fun i =>
        groupBits cfg.n (BitVec.ofNat 8 (i + 1)) fun j => fb.read (fbAddr i j)])

/-- R84 and R101, R103 read off the wire, with the addresses of R38: one frame per register group under `GROUP` and under
`FLUSH`, one per pair under `PAIR`. -/
def Obligations.ControlWritesOnTheWire : Prop :=
  ∀ (cfg : Config) (d : Bool),
    (cfg.cadence ≠ .pair →
      wireFrames d (testEvents cfg) =
        [groupBits cfg.n 0x0F fun _ => 0x01, groupBits cfg.n 0x0F fun _ => 0x00] ∧
      wireFrames d (initEvents cfg) =
        [groupBits cfg.n 0x09 fun _ => cfg.initDecode, groupBits cfg.n 0x0B fun _ => cfg.initScan,
          groupBits cfg.n 0x0C fun _ => cfg.initShutdown, groupBits cfg.n 0x0F fun _ => cfg.initTest] ++
        (cfg.initIntensity.toList.map fun v => groupBits cfg.n 0x0A fun _ => v)) ∧
    (cfg.cadence = .pair →
      wireFrames d (testEvents cfg) =
        List.replicate cfg.n (wordBits 0x0F 0x01) ++ List.replicate cfg.n (wordBits 0x0F 0x00) ∧
      wireFrames d (initEvents cfg) =
        List.replicate cfg.n (wordBits 0x09 cfg.initDecode) ++
        List.replicate cfg.n (wordBits 0x0B cfg.initScan) ++
        List.replicate cfg.n (wordBits 0x0C cfg.initShutdown) ++
        List.replicate cfg.n (wordBits 0x0F cfg.initTest) ++
        (cfg.initIntensity.toList.flatMap fun v => List.replicate cfg.n (wordBits 0x0A v))) ∧
    wireFrames d (resetSeq cfg) = wireFrames d (initEvents cfg) ++ wireFrames d (writeDisplay cfg [])

/-- R72: the events of a frame and of a flush, and the CLK rising edges of a flush, under every cadence. -/
def Obligations.FlushEventCounts : Prop :=
  ∀ (cfg : Config) (fb : Memory),
    (∀ ps : List WirePair, (frame ps).length = 48 * ps.length + 3) ∧
    (cfg.cadence = .group → (writeDisplay cfg fb).length = 384 * cfg.n + 24) ∧
    (cfg.cadence = .pair → (writeDisplay cfg fb).length = 408 * cfg.n) ∧
    (cfg.cadence = .flush → (writeDisplay cfg fb).length = 384 * cfg.n + 3) ∧
    (writeDisplay cfg fb).count (.clk true) = 128 * cfg.n

/-- R84, R103 and the table of 95_test_vectors.md L2.2: the lengths of `test` and of the reset sequence. -/
def Obligations.ControlEventCounts : Prop :=
  ∀ cfg : Config,
    (cfg.cadence = .group → (testEvents cfg).length = 96 * cfg.n + 8 ∧
      (resetSeq cfg).length = 576 * cfg.n + 36 + (if cfg.initIntensity = none then 0 else 48 * cfg.n + 3)) ∧
    (cfg.cadence = .pair → (testEvents cfg).length = 102 * cfg.n + 2 ∧
      (resetSeq cfg).length = 612 * cfg.n + (if cfg.initIntensity = none then 0 else 51 * cfg.n)) ∧
    (cfg.cadence = .flush → (testEvents cfg).length = 96 * cfg.n + 8 ∧
      (resetSeq cfg).length = 576 * cfg.n + 15 + (if cfg.initIntensity = none then 0 else 48 * cfg.n + 3))

/-- R38: the register bytes of every frame the block builds. -/
def Obligations.RegisterBytesOfTheMap : Prop :=
  ∀ (cfg : Config) (fb : Memory),
    (∀ f ∈ framing cfg.cadence .flushProg (flushGroups cfg.n fb), ∀ p ∈ f,
      1 ≤ p.reg.toNat ∧ p.reg.toNat ≤ 8) ∧
    (∀ f ∈ framing cfg.cadence .other (initGroups cfg), ∀ p ∈ f,
      p.reg = 0x09 ∨ p.reg = 0x0B ∨ p.reg = 0x0C ∨ p.reg = 0x0F ∨
        (p.reg = 0x0A ∧ cfg.initIntensity = some p.value)) ∧
    (∀ v : Byte, ∀ f ∈ framing cfg.cadence .other [bcast cfg.n regDisplayTest v], ∀ p ∈ f,
      p.reg = 0x0F ∧ p.value = v)

/-- R71: after a flush DIN is bit 0 of the last value byte sent, row 7 of the last chip; after `test` it is 0. -/
def Obligations.DinKeepsTheLastBit : Prop :=
  ∀ (s : State) (fb : Memory), 1 ≤ s.cfg.n →
    (performEvents s (writeDisplay s.cfg fb)).din = (fb.read (fbAddr 7 (s.cfg.n - 1))).getLsbD 0 ∧
    (performEvents s (testEvents s.cfg)).din = false ∧
    (performEvents s (resetSeq s.cfg)).din = false

/-- R60, R11 with `T_BIT = 0`: the least time of a flush and of `test` under `GROUP` is that of their waits, whatever
`T_SETTLE` and `T_PAUSE` are (free values, log entry 8). -/
def Obligations.WaitsBoundTheTime : Prop :=
  ∀ (cfg : Config) (fb : Memory), cfg.cadence = .group →
    ((writeDisplay cfg fb).map eventMinDuration).sum = 8 * Config.tSettle ∧
    ((testEvents cfg).map eventMinDuration).sum = 2 * Config.tSettle + 2 * Config.tPause

/-! ## Reset and configuration -/

/-- R98, R99: a step with `rst = 1`, whatever the phase, pins and event list, with the parameters it samples. (`cmd` is
unspecified there and not claimed.) -/
def Obligations.ResetOverridesEverything : Prop :=
  ∀ (s : State) (c : Config) (h : List HostMove), s.host = .reset c :: h → c.ok = true → s.cmdReady = false ∧
    ∃ t, step s = .next t ∧ (∀ a, t.fb.read a = 0x00) ∧ t.cs = true ∧ t.clk = false ∧ t.din = false ∧
      t.phase = .init ∧ t.ev = resetSeq c ∧ t.pc = 0 ∧ t.ill = false ∧ t.illCause = 0b00 ∧
      t.illWord = 0

/-- R29 for every configuration, and the defaults of R6 to R10 for this hardware. That `State.reset` is the state of these
defaults, and that every parameter is among those sampled, is the model's choice (log entry 4), as is a display-test initial
value other than off among "every configuration" (18). (`cmd` is unspecified and not claimed; the chips and the host's moves
are no part of R29.) -/
def Obligations.ResetStateIsAsStated : Prop :=
  (∀ cfg : Config, (∀ r j, (State.resetOf cfg).fbRead r j = 0x00) ∧ (State.resetOf cfg).cs = true ∧
    (State.resetOf cfg).clk = false ∧ (State.resetOf cfg).din = false ∧ (State.resetOf cfg).phase = .init ∧
    (State.resetOf cfg).ev = initEvents cfg ++ writeDisplay cfg [] ∧ (State.resetOf cfg).pc = 0 ∧
    (State.resetOf cfg).ill = false ∧ (State.resetOf cfg).illCause = 0b00 ∧ (State.resetOf cfg).illWord = 0 ∧
    (State.resetOf cfg).cfg = cfg) ∧
  State.reset = State.resetOf Config.thisHardware ∧
  Config.thisHardware.n = 1 ∧ Config.thisHardware.orient = 0 ∧ Config.thisHardware.cadence = .group ∧
  Config.thisHardware.initDecode = 0x00 ∧ Config.thisHardware.initScan = 0x07 ∧
  Config.thisHardware.initShutdown = 0x01 ∧ Config.thisHardware.initTest = 0x00 ∧
  Config.thisHardware.initIntensity = none

/-- R6: `N` is 1 by default, and a step is refused exactly where the `N` that counts in it is not in 1..255. Which `N` counts is
the model's reading: in a step with `rst = 1` the one sampled, whatever the one held, and in every other step the one held (log
entries 4 and 10). -/
def Obligations.ConfigurationOutOfRangeIsRefused : Prop :=
  Config.thisHardware.n = 1 ∧
  ∀ s : State, (s.cfgNow.n = 0 ∨ 255 < s.cfgNow.n → step s = .refused .configurationOutOfRange) ∧
    (1 ≤ s.cfgNow.n → s.cfgNow.n ≤ 255 → ∀ r, step s ≠ .refused r) ∧
    (s.rst = false → s.cfgNow = s.cfg) ∧ ∀ c h, s.host = .reset c :: h → s.cfgNow = c

/-- R29, R15, R24: a reset step samples the parameters, and they hold until the next reset. -/
def Obligations.ParametersAreSampledAtReset : Prop :=
  ∀ s t : State, step s = .next t →
    (s.rst = false → t.cfg = s.cfg) ∧ ∀ c h, s.host = .reset c :: h → t.cfg = c

/-- R7: `ORIENT` is read on `cfg_orient`, by default 0, and changes nothing else: neither a step nor another output. -/
def Obligations.OrientationHasNoEffect : Prop :=
  Config.thisHardware.orient = 0 ∧
  ∀ (o : Byte) (s : State),
    (∀ t, step s = .next t → step (s.withOrient o) = .next (t.withOrient o)) ∧
    (∀ f, step s = .fault f → step (s.withOrient o) = .fault f) ∧
    (∀ r, step s = .refused r → step (s.withOrient o) = .refused r) ∧
    (∀ row chip, (s.withOrient o).outputs row chip = { s.outputs row chip with cfgOrient := o }) ∧
    (s.withOrient o).cfgOrient = o

/-! ## Outputs -/

/-- R27: the read port, in every phase. -/
def Obligations.ReadPortShowsTheFramebuffer : Prop :=
  ∀ (s : State) (row : BitVec 3) (chip : Byte),
    (chip.toNat < s.cfg.n → (s.outputs row chip).fbRdData = s.fbRead row.toNat chip.toNat) ∧
    (s.cfg.n ≤ chip.toNat → (s.outputs row chip).fbRdData = 0x00)

/-- R22, R24: `busy`, `cmd_ready` and the constant outputs. -/
def Obligations.StatusOutputs : Prop :=
  ∀ (s : State) (row : BitVec 3) (chip : Byte),
    ((s.outputs row chip).busy = true ↔ s.phase ≠ .idle) ∧
    ((s.outputs row chip).cmdReady = true ↔ s.phase = .idle ∧ s.rst = false) ∧
    (s.cfg.ok = true → (s.outputs row chip).cfgAmount.toNat = s.cfg.n) ∧
    (s.outputs row chip).cfgOrient = s.cfg.orient

/-! ## Invariants of every step -/

/-- R21, R59, R70: every step keeps the sequencer and framing invariant, from every state that has it. -/
def Obligations.EveryStepKeepsTheFraming : Prop :=
  ∀ s t : State, SequencerInv s → step s = .next t → SequencerInv t

/-- R70: in every configuration that is not refused the state right after reset has it. -/
def Obligations.ResetMeetsTheFraming : Prop :=
  ∀ cfg : Config, cfg.ok = true → SequencerInv (State.resetOf cfg)

/-- R59, R85: under the invariant no step faults. -/
def Obligations.NoStepFaults : Prop :=
  ∀ s : State, SequencerInv s → s.cfgNow.ok = true → ∃ t, step s = .next t

/-- R16: every step keeps the framebuffer canonical and within its 8·N cells. -/
def Obligations.EveryStepKeepsTheFramebuffer : Prop :=
  ∀ s t : State, FramebufferInv s → step s = .next t → FramebufferInv t

/-- R23, R86: every step keeps the error status consistent. -/
def Obligations.EveryStepKeepsTheStatus : Prop :=
  ∀ s t : State, StatusInv s → step s = .next t → StatusInv t

/-- R44: every step keeps the chain at `N` chips with registers 0x1..0xF. -/
def Obligations.EveryStepKeepsTheChain : Prop :=
  ∀ s t : State, ChainInv s → step s = .next t → ChainInv t

/-- The state right after reset meets the framebuffer, status and chain invariants. -/
def Obligations.ResetMeetsTheOtherInvariants : Prop :=
  ∀ cfg : Config, FramebufferInv (State.resetOf cfg) ∧ StatusInv (State.resetOf cfg) ∧
    ChainInv (State.resetOf cfg)

/-- R16: `FB` is written only by an accepted drawing command and by reset. -/
def Obligations.FramebufferWrittenOnlyByCommands : Prop :=
  ∀ s t : State, step s = .next t → t.fb ≠ s.fb →
    s.rst = true ∨ (s.phase = .idle ∧ ∃ w i, s.offered = some w ∧ decode w = .instr i ∧
      i ≠ .test ∧ ∀ v, i ≠ .reserved v)

/-! ## The chips (under the reference model of R44) -/

/-- R45: one frame with the register group `reg`, `vals` under `GROUP`: every position `p` ends with `{reg, vals[N-p]}`
in its shift register, whatever it held, and register `reg[3:0]` (if not 0) takes `vals[N-p]`; no other register
changes. -/
def Obligations.GroupFrameReachesEveryChip : Prop :=
  ∀ (s : State) (reg : Byte) (vals : List Byte), s.cs = true → s.clk = false →
    s.chain.length = vals.length →
    ∀ p, 1 ≤ p → p ≤ vals.length →
      chainSR (performEvents s (frame (regGroup reg vals))).chain p =
        reg ++ vals.getD (vals.length - p) 0 ∧
      ∀ a, chainReg (performEvents s (frame (regGroup reg vals))).chain p a =
        if a = reg.toNat % 16 ∧ a ≠ 0 then vals.getD (vals.length - p) 0 else chainReg s.chain p a

/-- R46: "under `GROUP`, after the events left the chips show the framebuffer" is kept by every step: commands, `test`,
rejected words and a reset that samples other parameters included. -/
def Obligations.EveryStepKeepsTheChipsInStep : Prop :=
  ∀ s t : State, SequencerInv s → ChainInv s → GroupChainInv s → step s = .next t → GroupChainInv t

/-- R46: the reset sequence establishes it, whatever the chips held: right after reset it holds for any `N` chips. -/
def Obligations.ResetSequenceBringsTheChipsInStep : Prop :=
  ∀ (cfg : Config) (chain : List Chip), cfg.ok = true → cfg.cadence = .group → chain.length = cfg.n →
    ChainShowsFramebuffer { State.resetOf cfg with chain := chain }

/-- R108, R84, from pins at rest (chips: log entry 6). One frame for each half: from the CS edge that closes the first until the one that closes
the second, every row of every chip shows all LEDs, whatever its other registers hold; in the end display-test is 0 and
every other register as before. `PAIR`: the same from the last edge of the first half until the first of the second. -/
def Obligations.DisplayTestLightsEveryChip : Prop :=
  ∀ s : State, s.cs = true → s.clk = false → s.chain.length = s.cfg.n → ∀ p, 1 ≤ p → p ≤ s.cfg.n →
    (s.cfg.cadence ≠ .pair →
      (∀ k, 48 * s.cfg.n + 3 ≤ k → k < 96 * s.cfg.n + 7 → ∀ r,
        chainShows (performEvents s ((testEvents s.cfg).take k)).chain p r = some 0xFF) ∧
      ∀ a, chainReg (performEvents s (testEvents s.cfg)).chain p a =
        if a = 0xF then 0x00 else chainReg s.chain p a) ∧
    (s.cfg.cadence = .pair →
      (∀ k, 51 * s.cfg.n ≤ k → k < 51 * s.cfg.n + 52 → ∀ r,
        chainShows (performEvents s ((testEvents s.cfg).take k)).chain p r = some 0xFF) ∧
      chainReg (performEvents s (testEvents s.cfg)).chain p 0xF = 0x00)

/-- R46: a register of a chip (log entry 6) that a step finds and keeps (4) changes only at a CS rising edge. -/
def Obligations.ChipsChangeOnlyAtSelectRise : Prop :=
  ∀ s t : State, step s = .next t → ∀ p a, 1 ≤ p → p ≤ s.chain.length → p ≤ t.chain.length →
    chainReg t.chain p a ≠ chainReg s.chain p a → s.cs = false ∧ t.cs = true

/-- R110 `PAIR`: after a flush from idle pins every chip shows row `r ≤ 6` of the last chip index, and its own row 7. -/
def Obligations.PairCadenceShowsTheLastChip : Prop :=
  ∀ s : State, s.cfg.cadence = .pair → s.cs = true → s.clk = false → s.chain.length = s.cfg.n →
    ∀ p, 1 ≤ p → p ≤ s.cfg.n →
      (∀ r, r < 7 → chainReg (performEvents s (writeDisplay s.cfg s.fb)).chain p (r + 1) =
        s.fbRead r (s.cfg.n - 1)) ∧
      chainReg (performEvents s (writeDisplay s.cfg s.fb)).chain p 8 = s.fbRead 7 (s.cfg.n - p)

/-- R110 `FLUSH`: after a flush from idle pins every chip shows its own row 7, and no other register was written. -/
def Obligations.FlushCadenceWritesOnlyRowSeven : Prop :=
  ∀ s : State, s.cfg.cadence = .flush → s.cs = true → s.clk = false → s.chain.length = s.cfg.n →
    ∀ p, 1 ≤ p → p ≤ s.cfg.n →
      chainReg (performEvents s (writeDisplay s.cfg s.fb)).chain p 8 = s.fbRead 7 (s.cfg.n - p) ∧
      ∀ a, a ≠ 8 → chainReg (performEvents s (writeDisplay s.cfg s.fb)).chain p a = chainReg s.chain p a

/-- R109, under the reference chain (log entry 6) and the model's reading of the edge (7), of a chain that a reset finds longer
or shorter (4) and of the free values (17): a reset inside a frame is a CS rising edge, at which every chip latches what
it holds, and the registers the coming reset sequence does not rewrite, intensity among them, hold any value; outside a
frame the chips see nothing. Chips that come new hold any value. -/
def Obligations.ResetInsideAFrameLatches : Prop :=
  ∀ (s t : State) (c : Config) (h : List HostMove), s.host = .reset c :: h → step s = .next t →
    t.chain.length = c.n ∧ 0xA ∈ leftByReset c ∧
    (∀ p, 1 ≤ p → p ≤ c.n → p ≤ s.chain.length → chainSR t.chain p = chainSR s.chain p ∧
      ∀ a, chainReg t.chain p a =
        if s.cs then chainReg s.chain p a
        else if a ∈ leftByReset c then Config.freeReg s.free p a
        else chainReg (s.chain.map Chip.latch) p a) ∧
    (∀ p, s.chain.length < p → p ≤ c.n → chainSR t.chain p = Config.freeSR s.free p ∧
      ∀ a, 1 ≤ a → a ≤ 15 → chainReg t.chain p a = Config.freeReg s.free p a) ∧
    t.free = s.free + 1

/-! ## Progress -/

/-- R21, R59, R112: without reset the events left are all performed, one a step; the phase stays until the last and is
`IDLE` right after it, the framebuffer and the error status as before. (The chips are those of log entry 6.) -/
def Obligations.EventListRunsToIdle : Prop :=
  ∀ s : State, s.cfg.ok = true → s.phase ≠ .idle → s.pc < s.ev.length →
    (∀ c, .reset c ∉ s.host) →
    (∀ k, k < s.ev.length - s.pc → ∃ u : State, runSteps k s = .next u ∧ u.phase = s.phase) ∧
    ∃ t : State, runSteps (s.ev.length - s.pc) s = .next t ∧ t.phase = .idle ∧ t.pc = s.ev.length ∧
      t.ev = s.ev ∧ t.fb = s.fb ∧ t.ill = s.ill ∧ t.illCause = s.illCause ∧ t.illWord = s.illWord ∧
      t.cs = s.settled.cs ∧ t.clk = s.settled.clk ∧ t.din = s.settled.din ∧ t.chain = s.settled.chain

/-- R103, R112: under `GROUP`, `INIT_INTENSITY = NONE`, a reset step and `576·N + 36` steps later the block is `IDLE`
for the first time, with idle CS and CLK and an all-zero framebuffer, if no further reset comes. -/
def Obligations.ResetSequenceTakesItsSteps : Prop :=
  ∀ (s : State) (c : Config) (h : List HostMove), s.host = .reset c :: h → c.ok = true → c.cadence = .group →
    c.initIntensity = none → (∀ c', .reset c' ∉ h) →
    (∀ k, 1 ≤ k → k < 576 * c.n + 37 → ∃ u : State, runSteps k s = .next u ∧ u.phase = .init) ∧
    ∃ t : State, runSteps (576 * c.n + 37) s = .next t ∧ t.phase = .idle ∧ t.cs = true ∧
      t.clk = false ∧ (∀ a, t.fb.read a = 0x00) ∧ t.ill = false

/-- The headline: under `GROUP`, a drawing command taken in `IDLE` is complete `384·N + 25` steps later: the block is
`IDLE` again, the framebuffer is the command's, and every chip shows its own column of it (R26, R46, R76, R112). -/
def Obligations.DrawingCommandReachesTheChips : Prop :=
  ∀ (s : State) (w : CmdWord) (h : List HostMove) (i : Instr), s.cfg.ok = true → s.cfg.cadence = .group →
    SequencerInv s → s.phase = .idle → s.chain.length = s.cfg.n →
    (s.host = .offer w :: h ∨ s.host = .hold w :: h) → (∀ c, .reset c ∉ h) →
    decode w = .instr i → i ≠ .test → (∀ v, i ≠ .reserved v) →
    ∃ u t : State, exec i { s with cmd := w, host := h } = .next u ∧
      runSteps (384 * s.cfg.n + 25) s = .next t ∧ t.phase = .idle ∧ t.cs = true ∧ t.clk = false ∧
      t.fb = u.fb ∧
      ∀ r, r < 8 → ∀ p, 1 ≤ p → p ≤ s.cfg.n → chainReg t.chain p (r + 1) = t.fbRead r (s.cfg.n - p)
end

