-- ==== Sys2Proof/Laws/Memory.lean ====
section
/-! SUPPORT. The laws of byte memory: read after write, the canonical form kept, equality of canonical memories. -/

namespace Sys2Proof.Machine.Memory

@[simp] theorem read_nil (a : Nat) : Memory.read [] a = 0x00#8 := rfl

theorem read_erase (m : Memory) (a b : Nat) :
    (m.erase a).read b = if a = b then 0x00#8 else m.read b := by
  induction m with
  | nil => simp [Memory.erase]
  | cons c m ih =>
    obtain ⟨x, v⟩ := c
    by_cases hxa : x = a
    · subst hxa
      by_cases hab : x = b
      · simpa [Memory.erase, hab] using ih
      · simp [Memory.erase, Memory.read, ih, hab]
    · by_cases hxb : x = b
      · subst hxb; simp [Memory.erase, Memory.read, hxa, Ne.symm hxa]
      · simp [Memory.erase, Memory.read, ih, hxa, hxb]

theorem read_insert_other (m : Memory) {a b : Nat} (v : Byte) (h : a ≠ b) :
    (m.insert a v).read b = m.read b := by
  induction m with
  | nil => simp [Memory.insert, Memory.read, h, Memory.unlisted]
  | cons c m ih =>
    obtain ⟨x, u⟩ := c
    by_cases hx : a < x
    · simp [Memory.insert, Memory.read, hx, h]
    · rw [Memory.insert, if_neg hx]
      by_cases hxb : x = b <;> simp [Memory.read, hxb, ih]

theorem read_insert_erase_same (m : Memory) (a : Nat) (v : Byte) :
    ((m.erase a).insert a v).read a = v := by
  induction m with
  | nil => simp [Memory.erase, Memory.insert, Memory.read]
  | cons c m ih =>
    obtain ⟨x, u⟩ := c
    by_cases hxa : x = a
    · simpa [Memory.erase, hxa] using ih
    · by_cases hx : a < x <;> simp [Memory.erase, Memory.insert, Memory.read, hxa, hx, ih]

/-- Read after write, for every memory. -/
@[simp] theorem read_write (m : Memory) (a b : Nat) (v : Byte) :
    (m.write a v).read b = if a = b then v else m.read b := by
  unfold Memory.write
  split
  · next h => subst h; simp [read_erase, Memory.unlisted]
  · by_cases hab : a = b
    · subst hab; simp [read_insert_erase_same]
    · simp [read_insert_other _ _ hab, read_erase, hab]

theorem mem_erase {m : Memory} {a : Nat} {c : Host.Cell} :
    c ∈ m.erase a ↔ c ∈ m ∧ c.1 ≠ a := by
  induction m with
  | nil => simp [Memory.erase]
  | cons d m ih =>
    obtain ⟨x, u⟩ := d
    by_cases hx : x = a
    · simp only [Memory.erase, hx, if_true, ih, List.mem_cons]
      constructor
      · rintro ⟨h, h'⟩; exact ⟨.inr h, h'⟩
      · rintro ⟨rfl | h, h'⟩
        · exact absurd rfl h'
        · exact ⟨h, h'⟩
    · simp only [Memory.erase, hx, if_false, ih, List.mem_cons]
      constructor
      · rintro (rfl | ⟨h, h'⟩)
        · exact ⟨.inl rfl, hx⟩
        · exact ⟨.inr h, h'⟩
      · rintro ⟨rfl | h, h'⟩
        · exact .inl rfl
        · exact .inr ⟨h, h'⟩

theorem mem_insert {m : Memory} {a : Nat} {v : Byte} {c : Host.Cell} :
    c ∈ m.insert a v ↔ c = (a, v) ∨ c ∈ m := by
  induction m with
  | nil => simp [Memory.insert]
  | cons d m ih =>
    obtain ⟨x, u⟩ := d
    by_cases hx : a < x
    · simp [Memory.insert, hx]
    · simp only [Memory.insert, hx, if_false, List.mem_cons, ih]; tauto

theorem mem_write {m : Memory} {a : Nat} {v : Byte} {c : Host.Cell} (h : c ∈ m.write a v) :
    c = (a, v) ∨ c ∈ m := by
  unfold Memory.write at h
  split at h
  · exact .inr (mem_erase.mp h).1
  · exact (mem_insert.mp h).imp_right fun h' => (mem_erase.mp h').1

theorem erase_wf {m : Memory} (h : m.wf) (a : Nat) : (m.erase a).wf := by
  have sub : ∀ m : Memory, (m.erase a).Sublist m := by
    intro m
    induction m with
    | nil => exact List.Sublist.refl _
    | cons c m ih =>
      obtain ⟨x, u⟩ := c
      by_cases hx : x = a
      · simpa [Memory.erase, hx] using ih.cons _
      · simpa [Memory.erase, hx] using ih.cons_cons (x, u)
  exact ⟨h.1.sublist (sub m), fun c hc => h.2 c ((sub m).subset hc)⟩

theorem insert_wf {m : Memory} (h : m.wf) {a : Nat} (ha : ∀ c ∈ m, c.1 ≠ a) {v : Byte}
    (hv : v ≠ Memory.unlisted) : (m.insert a v).wf := by
  refine ⟨?_, fun c hc => ?_⟩
  · obtain ⟨hp, -⟩ := h
    induction m with
    | nil => simp [Memory.insert]
    | cons d m ih =>
      obtain ⟨x, u⟩ := d
      have hxa : x ≠ a := ha (x, u) (by simp)
      rw [List.pairwise_cons] at hp
      by_cases hx : a < x
      · simp only [Memory.insert, hx, if_true, List.pairwise_cons, List.mem_cons]
        refine ⟨?_, hp⟩
        rintro c (rfl | hc)
        · exact hx
        · exact lt_trans hx (hp.1 c hc)
      · simp only [Memory.insert, hx, if_false, List.pairwise_cons]
        refine ⟨?_, ih (fun c hc => ha c (by simp [hc])) hp.2⟩
        intro c hc
        rcases mem_insert.mp hc with rfl | hc
        · show x < a; omega
        · exact hp.1 c hc
  · rcases mem_insert.mp hc with rfl | hc
    · exact hv
    · exact h.2 c hc

/-- Every write keeps the canonical form. -/
theorem write_wf {m : Memory} (h : m.wf) (a : Nat) (v : Byte) : (m.write a v).wf := by
  unfold Memory.write
  split
  · exact erase_wf h a
  · next hv => exact insert_wf (erase_wf h a) (fun c hc => (mem_erase.mp hc).2) hv

theorem nil_wf : Memory.wf [] := by decide

theorem read_of_mem {m : Memory} (h : m.wf) {c : Host.Cell} (hc : c ∈ m) : m.read c.1 = c.2 := by
  obtain ⟨hp, -⟩ := h
  induction m with
  | nil => cases hc
  | cons d m ih =>
    rw [List.pairwise_cons] at hp
    rcases List.mem_cons.mp hc with rfl | hc
    · simp [Memory.read]
    · have := hp.1 c hc
      have hne : ¬ d.1 = c.1 := by omega
      simpa [Memory.read, hne] using ih hc hp.2

theorem mem_of_read {m : Memory} {a : Nat} (h : m.read a ≠ 0x00#8) : (a, m.read a) ∈ m := by
  induction m with
  | nil => simp at h
  | cons d m ih =>
    obtain ⟨x, v⟩ := d
    by_cases hx : x = a
    · subst hx; simp [Memory.read]
    · simp only [Memory.read, hx, if_false] at h ⊢
      exact List.mem_cons_of_mem _ (ih h)

/-- Canonical memories that read alike are equal lists. -/
theorem ext {m m' : Memory} (h : m.wf) (h' : m'.wf) (hr : ∀ a, m.read a = m'.read a) : m = m' := by
  have incl : ∀ {m m' : Memory}, m.wf → (∀ a, m.read a = m'.read a) → m ⊆ m' := by
    intro m m' h hr c hc
    have hc' := read_of_mem h hc
    have : m'.read c.1 ≠ 0x00#8 := by rw [← hr, hc']; exact h.2 c hc
    have := mem_of_read this
    rwa [← hr, hc'] at this
  have nd : ∀ {m : Memory}, m.wf → m.Nodup := fun h =>
    h.1.imp fun {x y} hxy => by rintro rfl; exact absurd hxy (lt_irrefl _)
  have perm : m.Perm m' :=
    (List.perm_ext_iff_of_nodup (nd h) (nd h')).mpr fun c =>
      ⟨fun hc => incl h hr hc, fun hc => incl h' (fun a => (hr a).symm) hc⟩
  refine List.Perm.eq_of_pairwise (le := fun x y : Host.Cell => x.1 < y.1) ?_ h.1 h'.1 perm
  intro a b _ _ hab hba
  exact absurd hab (by omega)

end Sys2Proof.Machine.Memory
end

