-- ==== Sys2Proof/Laws/Operands.lean ====
section
/-! SUPPORT. What the operand helpers can answer: the ranges of the clamps and the bits of a column and of a shift. -/

namespace Sys2Proof.Machine

theorem clamp07_le (v : Byte) : clamp07 v ≤ 7 := by unfold clamp07; omega

theorem chipIndex_lt {n : Nat} (h : 1 ≤ n) (nth : Byte) : chipIndex n nth < n := by
  unfold chipIndex; split <;> omega

theorem chipIndex_lt_256 (n : Nat) (nth : Byte) : chipIndex n nth < 256 := by
  have := nth.isLt
  unfold chipIndex; split <;> omega

theorem getLsbD_colBit {c i : Nat} (hi : i < 8) : (colBit c).getLsbD i = decide (i = c) := by
  unfold colBit
  rw [BitVec.getLsbD_shiftLeft]
  by_cases h : i < c
  · simp [h]; omega
  · by_cases hc : i = c
    · subst hc; simp [hi]
    · have : i - c ≠ 0 := by omega
      simp [hc, BitVec.getLsbD_one, this]

theorem clampShift_bounds (s : Byte) : -7 ≤ clampShift s ∧ clampShift s ≤ 7 := by
  unfold clampShift; omega

end Sys2Proof.Machine
end

