-- ==== Sys2Proof/Laws/State.lean ====
section
/-! SUPPORT. One lemma per field per update of State, so that no proof unfolds a record update. -/

namespace Sys2Proof.Machine

@[simp] theorem State.fbWrite_fb (s : State) (r k : Nat) (v : Byte) : (s.fbWrite r k v).fb = s.fb.write (fbAddr r k) v := rfl
@[simp] theorem State.fbWrite_cs (s : State) (r k : Nat) (v : Byte) : (s.fbWrite r k v).cs = s.cs := rfl
@[simp] theorem State.fbWrite_clk (s : State) (r k : Nat) (v : Byte) : (s.fbWrite r k v).clk = s.clk := rfl
@[simp] theorem State.fbWrite_din (s : State) (r k : Nat) (v : Byte) : (s.fbWrite r k v).din = s.din := rfl
@[simp] theorem State.fbWrite_phase (s : State) (r k : Nat) (v : Byte) : (s.fbWrite r k v).phase = s.phase := rfl
@[simp] theorem State.fbWrite_cmd (s : State) (r k : Nat) (v : Byte) : (s.fbWrite r k v).cmd = s.cmd := rfl
@[simp] theorem State.fbWrite_ev (s : State) (r k : Nat) (v : Byte) : (s.fbWrite r k v).ev = s.ev := rfl
@[simp] theorem State.fbWrite_pc (s : State) (r k : Nat) (v : Byte) : (s.fbWrite r k v).pc = s.pc := rfl
@[simp] theorem State.fbWrite_ill (s : State) (r k : Nat) (v : Byte) : (s.fbWrite r k v).ill = s.ill := rfl
@[simp] theorem State.fbWrite_illCause (s : State) (r k : Nat) (v : Byte) : (s.fbWrite r k v).illCause = s.illCause := rfl
@[simp] theorem State.fbWrite_illWord (s : State) (r k : Nat) (v : Byte) : (s.fbWrite r k v).illWord = s.illWord := rfl
@[simp] theorem State.fbWrite_cfg (s : State) (r k : Nat) (v : Byte) : (s.fbWrite r k v).cfg = s.cfg := rfl
@[simp] theorem State.fbWrite_chain (s : State) (r k : Nat) (v : Byte) : (s.fbWrite r k v).chain = s.chain := rfl
@[simp] theorem State.fbWrite_host (s : State) (r k : Nat) (v : Byte) : (s.fbWrite r k v).host = s.host := rfl
@[simp] theorem State.fbWrite_free (s : State) (r k : Nat) (v : Byte) : (s.fbWrite r k v).free = s.free := rfl

@[simp] theorem State.fbMapRows_fb (s : State) (f : Nat → Byte → Byte) (k : Nat) : (s.fbMapRows f k).fb = writeRows f k 8 s.fb := rfl
@[simp] theorem State.fbMapRows_cs (s : State) (f : Nat → Byte → Byte) (k : Nat) : (s.fbMapRows f k).cs = s.cs := rfl
@[simp] theorem State.fbMapRows_clk (s : State) (f : Nat → Byte → Byte) (k : Nat) : (s.fbMapRows f k).clk = s.clk := rfl
@[simp] theorem State.fbMapRows_din (s : State) (f : Nat → Byte → Byte) (k : Nat) : (s.fbMapRows f k).din = s.din := rfl
@[simp] theorem State.fbMapRows_phase (s : State) (f : Nat → Byte → Byte) (k : Nat) : (s.fbMapRows f k).phase = s.phase := rfl
@[simp] theorem State.fbMapRows_cmd (s : State) (f : Nat → Byte → Byte) (k : Nat) : (s.fbMapRows f k).cmd = s.cmd := rfl
@[simp] theorem State.fbMapRows_ev (s : State) (f : Nat → Byte → Byte) (k : Nat) : (s.fbMapRows f k).ev = s.ev := rfl
@[simp] theorem State.fbMapRows_pc (s : State) (f : Nat → Byte → Byte) (k : Nat) : (s.fbMapRows f k).pc = s.pc := rfl
@[simp] theorem State.fbMapRows_ill (s : State) (f : Nat → Byte → Byte) (k : Nat) : (s.fbMapRows f k).ill = s.ill := rfl
@[simp] theorem State.fbMapRows_illCause (s : State) (f : Nat → Byte → Byte) (k : Nat) : (s.fbMapRows f k).illCause = s.illCause := rfl
@[simp] theorem State.fbMapRows_illWord (s : State) (f : Nat → Byte → Byte) (k : Nat) : (s.fbMapRows f k).illWord = s.illWord := rfl
@[simp] theorem State.fbMapRows_cfg (s : State) (f : Nat → Byte → Byte) (k : Nat) : (s.fbMapRows f k).cfg = s.cfg := rfl
@[simp] theorem State.fbMapRows_chain (s : State) (f : Nat → Byte → Byte) (k : Nat) : (s.fbMapRows f k).chain = s.chain := rfl
@[simp] theorem State.fbMapRows_host (s : State) (f : Nat → Byte → Byte) (k : Nat) : (s.fbMapRows f k).host = s.host := rfl
@[simp] theorem State.fbMapRows_free (s : State) (f : Nat → Byte → Byte) (k : Nat) : (s.fbMapRows f k).free = s.free := rfl

@[simp] theorem State.fbClearAll_fb (s : State) : s.fbClearAll.fb = clearChips s.cfg.n s.fb := rfl
@[simp] theorem State.fbClearAll_cs (s : State) : s.fbClearAll.cs = s.cs := rfl
@[simp] theorem State.fbClearAll_clk (s : State) : s.fbClearAll.clk = s.clk := rfl
@[simp] theorem State.fbClearAll_din (s : State) : s.fbClearAll.din = s.din := rfl
@[simp] theorem State.fbClearAll_phase (s : State) : s.fbClearAll.phase = s.phase := rfl
@[simp] theorem State.fbClearAll_cmd (s : State) : s.fbClearAll.cmd = s.cmd := rfl
@[simp] theorem State.fbClearAll_ev (s : State) : s.fbClearAll.ev = s.ev := rfl
@[simp] theorem State.fbClearAll_pc (s : State) : s.fbClearAll.pc = s.pc := rfl
@[simp] theorem State.fbClearAll_ill (s : State) : s.fbClearAll.ill = s.ill := rfl
@[simp] theorem State.fbClearAll_illCause (s : State) : s.fbClearAll.illCause = s.illCause := rfl
@[simp] theorem State.fbClearAll_illWord (s : State) : s.fbClearAll.illWord = s.illWord := rfl
@[simp] theorem State.fbClearAll_cfg (s : State) : s.fbClearAll.cfg = s.cfg := rfl
@[simp] theorem State.fbClearAll_chain (s : State) : s.fbClearAll.chain = s.chain := rfl
@[simp] theorem State.fbClearAll_host (s : State) : s.fbClearAll.host = s.host := rfl
@[simp] theorem State.fbClearAll_free (s : State) : s.fbClearAll.free = s.free := rfl

@[simp] theorem State.driveCS_fb (s : State) (l : Bool) : (s.driveCS l).fb = s.fb := rfl
@[simp] theorem State.driveCS_cs (s : State) (l : Bool) : (s.driveCS l).cs = l := rfl
@[simp] theorem State.driveCS_clk (s : State) (l : Bool) : (s.driveCS l).clk = s.clk := rfl
@[simp] theorem State.driveCS_din (s : State) (l : Bool) : (s.driveCS l).din = s.din := rfl
@[simp] theorem State.driveCS_phase (s : State) (l : Bool) : (s.driveCS l).phase = s.phase := rfl
@[simp] theorem State.driveCS_cmd (s : State) (l : Bool) : (s.driveCS l).cmd = s.cmd := rfl
@[simp] theorem State.driveCS_ev (s : State) (l : Bool) : (s.driveCS l).ev = s.ev := rfl
@[simp] theorem State.driveCS_pc (s : State) (l : Bool) : (s.driveCS l).pc = s.pc := rfl
@[simp] theorem State.driveCS_ill (s : State) (l : Bool) : (s.driveCS l).ill = s.ill := rfl
@[simp] theorem State.driveCS_illCause (s : State) (l : Bool) : (s.driveCS l).illCause = s.illCause := rfl
@[simp] theorem State.driveCS_illWord (s : State) (l : Bool) : (s.driveCS l).illWord = s.illWord := rfl
@[simp] theorem State.driveCS_cfg (s : State) (l : Bool) : (s.driveCS l).cfg = s.cfg := rfl
@[simp] theorem State.driveCS_chain (s : State) (l : Bool) : (s.driveCS l).chain = if l && !s.cs then s.chain.map Chip.latch else s.chain := rfl
@[simp] theorem State.driveCS_host (s : State) (l : Bool) : (s.driveCS l).host = s.host := rfl
@[simp] theorem State.driveCS_free (s : State) (l : Bool) : (s.driveCS l).free = s.free := rfl

@[simp] theorem State.driveCLK_fb (s : State) (l : Bool) : (s.driveCLK l).fb = s.fb := rfl
@[simp] theorem State.driveCLK_cs (s : State) (l : Bool) : (s.driveCLK l).cs = s.cs := rfl
@[simp] theorem State.driveCLK_clk (s : State) (l : Bool) : (s.driveCLK l).clk = l := rfl
@[simp] theorem State.driveCLK_din (s : State) (l : Bool) : (s.driveCLK l).din = s.din := rfl
@[simp] theorem State.driveCLK_phase (s : State) (l : Bool) : (s.driveCLK l).phase = s.phase := rfl
@[simp] theorem State.driveCLK_cmd (s : State) (l : Bool) : (s.driveCLK l).cmd = s.cmd := rfl
@[simp] theorem State.driveCLK_ev (s : State) (l : Bool) : (s.driveCLK l).ev = s.ev := rfl
@[simp] theorem State.driveCLK_pc (s : State) (l : Bool) : (s.driveCLK l).pc = s.pc := rfl
@[simp] theorem State.driveCLK_ill (s : State) (l : Bool) : (s.driveCLK l).ill = s.ill := rfl
@[simp] theorem State.driveCLK_illCause (s : State) (l : Bool) : (s.driveCLK l).illCause = s.illCause := rfl
@[simp] theorem State.driveCLK_illWord (s : State) (l : Bool) : (s.driveCLK l).illWord = s.illWord := rfl
@[simp] theorem State.driveCLK_cfg (s : State) (l : Bool) : (s.driveCLK l).cfg = s.cfg := rfl
@[simp] theorem State.driveCLK_chain (s : State) (l : Bool) : (s.driveCLK l).chain = if l && !s.clk && !s.cs then chainShift s.din s.chain else s.chain := rfl
@[simp] theorem State.driveCLK_host (s : State) (l : Bool) : (s.driveCLK l).host = s.host := rfl
@[simp] theorem State.driveCLK_free (s : State) (l : Bool) : (s.driveCLK l).free = s.free := rfl

@[simp] theorem State.driveDIN_fb (s : State) (l : Bool) : (s.driveDIN l).fb = s.fb := rfl
@[simp] theorem State.driveDIN_cs (s : State) (l : Bool) : (s.driveDIN l).cs = s.cs := rfl
@[simp] theorem State.driveDIN_clk (s : State) (l : Bool) : (s.driveDIN l).clk = s.clk := rfl
@[simp] theorem State.driveDIN_din (s : State) (l : Bool) : (s.driveDIN l).din = l := rfl
@[simp] theorem State.driveDIN_phase (s : State) (l : Bool) : (s.driveDIN l).phase = s.phase := rfl
@[simp] theorem State.driveDIN_cmd (s : State) (l : Bool) : (s.driveDIN l).cmd = s.cmd := rfl
@[simp] theorem State.driveDIN_ev (s : State) (l : Bool) : (s.driveDIN l).ev = s.ev := rfl
@[simp] theorem State.driveDIN_pc (s : State) (l : Bool) : (s.driveDIN l).pc = s.pc := rfl
@[simp] theorem State.driveDIN_ill (s : State) (l : Bool) : (s.driveDIN l).ill = s.ill := rfl
@[simp] theorem State.driveDIN_illCause (s : State) (l : Bool) : (s.driveDIN l).illCause = s.illCause := rfl
@[simp] theorem State.driveDIN_illWord (s : State) (l : Bool) : (s.driveDIN l).illWord = s.illWord := rfl
@[simp] theorem State.driveDIN_cfg (s : State) (l : Bool) : (s.driveDIN l).cfg = s.cfg := rfl
@[simp] theorem State.driveDIN_chain (s : State) (l : Bool) : (s.driveDIN l).chain = s.chain := rfl
@[simp] theorem State.driveDIN_host (s : State) (l : Bool) : (s.driveDIN l).host = s.host := rfl
@[simp] theorem State.driveDIN_free (s : State) (l : Bool) : (s.driveDIN l).free = s.free := rfl

@[simp] theorem State.advance_fb (s : State) : s.advance.fb = s.fb := rfl
@[simp] theorem State.advance_cs (s : State) : s.advance.cs = s.cs := rfl
@[simp] theorem State.advance_clk (s : State) : s.advance.clk = s.clk := rfl
@[simp] theorem State.advance_din (s : State) : s.advance.din = s.din := rfl
@[simp] theorem State.advance_phase (s : State) : s.advance.phase = if s.pc + 1 = s.ev.length then .idle else s.phase := rfl
@[simp] theorem State.advance_cmd (s : State) : s.advance.cmd = s.cmd := rfl
@[simp] theorem State.advance_ev (s : State) : s.advance.ev = s.ev := rfl
@[simp] theorem State.advance_pc (s : State) : s.advance.pc = s.pc + 1 := rfl
@[simp] theorem State.advance_ill (s : State) : s.advance.ill = s.ill := rfl
@[simp] theorem State.advance_illCause (s : State) : s.advance.illCause = s.illCause := rfl
@[simp] theorem State.advance_illWord (s : State) : s.advance.illWord = s.illWord := rfl
@[simp] theorem State.advance_cfg (s : State) : s.advance.cfg = s.cfg := rfl
@[simp] theorem State.advance_chain (s : State) : s.advance.chain = s.chain := rfl
@[simp] theorem State.advance_host (s : State) : s.advance.host = s.host := rfl
@[simp] theorem State.advance_free (s : State) : s.advance.free = s.free := rfl

@[simp] theorem State.startEvents_fb (s : State) (es : List Event) : (s.startEvents es).fb = s.fb := rfl
@[simp] theorem State.startEvents_cs (s : State) (es : List Event) : (s.startEvents es).cs = s.cs := rfl
@[simp] theorem State.startEvents_clk (s : State) (es : List Event) : (s.startEvents es).clk = s.clk := rfl
@[simp] theorem State.startEvents_din (s : State) (es : List Event) : (s.startEvents es).din = s.din := rfl
@[simp] theorem State.startEvents_phase (s : State) (es : List Event) : (s.startEvents es).phase = .busy := rfl
@[simp] theorem State.startEvents_cmd (s : State) (es : List Event) : (s.startEvents es).cmd = s.cmd := rfl
@[simp] theorem State.startEvents_ev (s : State) (es : List Event) : (s.startEvents es).ev = es := rfl
@[simp] theorem State.startEvents_pc (s : State) (es : List Event) : (s.startEvents es).pc = 0 := rfl
@[simp] theorem State.startEvents_ill (s : State) (es : List Event) : (s.startEvents es).ill = s.ill := rfl
@[simp] theorem State.startEvents_illCause (s : State) (es : List Event) : (s.startEvents es).illCause = s.illCause := rfl
@[simp] theorem State.startEvents_illWord (s : State) (es : List Event) : (s.startEvents es).illWord = s.illWord := rfl
@[simp] theorem State.startEvents_cfg (s : State) (es : List Event) : (s.startEvents es).cfg = s.cfg := rfl
@[simp] theorem State.startEvents_chain (s : State) (es : List Event) : (s.startEvents es).chain = s.chain := rfl
@[simp] theorem State.startEvents_host (s : State) (es : List Event) : (s.startEvents es).host = s.host := rfl
@[simp] theorem State.startEvents_free (s : State) (es : List Event) : (s.startEvents es).free = s.free := rfl

@[simp] theorem State.startFlush_fb (s : State) : s.startFlush.fb = s.fb := rfl
@[simp] theorem State.startFlush_cs (s : State) : s.startFlush.cs = s.cs := rfl
@[simp] theorem State.startFlush_clk (s : State) : s.startFlush.clk = s.clk := rfl
@[simp] theorem State.startFlush_din (s : State) : s.startFlush.din = s.din := rfl
@[simp] theorem State.startFlush_phase (s : State) : s.startFlush.phase = .busy := rfl
@[simp] theorem State.startFlush_cmd (s : State) : s.startFlush.cmd = s.cmd := rfl
@[simp] theorem State.startFlush_ev (s : State) : s.startFlush.ev = writeDisplay s.cfg s.fb := rfl
@[simp] theorem State.startFlush_pc (s : State) : s.startFlush.pc = 0 := rfl
@[simp] theorem State.startFlush_ill (s : State) : s.startFlush.ill = s.ill := rfl
@[simp] theorem State.startFlush_illCause (s : State) : s.startFlush.illCause = s.illCause := rfl
@[simp] theorem State.startFlush_illWord (s : State) : s.startFlush.illWord = s.illWord := rfl
@[simp] theorem State.startFlush_cfg (s : State) : s.startFlush.cfg = s.cfg := rfl
@[simp] theorem State.startFlush_chain (s : State) : s.startFlush.chain = s.chain := rfl
@[simp] theorem State.startFlush_host (s : State) : s.startFlush.host = s.host := rfl
@[simp] theorem State.startFlush_free (s : State) : s.startFlush.free = s.free := rfl

@[simp] theorem State.resetBlock_fb (cfg : Config) (s : State) : (resetBlock cfg s).fb = [] := rfl
@[simp] theorem State.resetBlock_cs (cfg : Config) (s : State) : (resetBlock cfg s).cs = true := rfl
@[simp] theorem State.resetBlock_clk (cfg : Config) (s : State) : (resetBlock cfg s).clk = false := rfl
@[simp] theorem State.resetBlock_din (cfg : Config) (s : State) : (resetBlock cfg s).din = false := rfl
@[simp] theorem State.resetBlock_phase (cfg : Config) (s : State) : (resetBlock cfg s).phase = .init := rfl
@[simp] theorem State.resetBlock_cmd (cfg : Config) (s : State) : (resetBlock cfg s).cmd = 0 := rfl
@[simp] theorem State.resetBlock_ev (cfg : Config) (s : State) : (resetBlock cfg s).ev = resetSeq cfg := rfl
@[simp] theorem State.resetBlock_pc (cfg : Config) (s : State) : (resetBlock cfg s).pc = 0 := rfl
@[simp] theorem State.resetBlock_ill (cfg : Config) (s : State) : (resetBlock cfg s).ill = false := rfl
@[simp] theorem State.resetBlock_illCause (cfg : Config) (s : State) : (resetBlock cfg s).illCause = 0b00 := rfl
@[simp] theorem State.resetBlock_illWord (cfg : Config) (s : State) : (resetBlock cfg s).illWord = 0 := rfl
@[simp] theorem State.resetBlock_cfg (cfg : Config) (s : State) : (resetBlock cfg s).cfg = cfg := rfl
@[simp] theorem State.resetBlock_chain (cfg : Config) (s : State) : (resetBlock cfg s).chain = resetChips cfg s := rfl
@[simp] theorem State.resetBlock_host (cfg : Config) (s : State) : (resetBlock cfg s).host = s.host := rfl
@[simp] theorem State.resetBlock_free (cfg : Config) (s : State) : (resetBlock cfg s).free = s.free + 1 := rfl

@[simp] theorem State.hostWaits_fb (s : State) : s.hostWaits.fb = s.fb := rfl
@[simp] theorem State.hostWaits_cs (s : State) : s.hostWaits.cs = s.cs := rfl
@[simp] theorem State.hostWaits_clk (s : State) : s.hostWaits.clk = s.clk := rfl
@[simp] theorem State.hostWaits_din (s : State) : s.hostWaits.din = s.din := rfl
@[simp] theorem State.hostWaits_phase (s : State) : s.hostWaits.phase = s.phase := rfl
@[simp] theorem State.hostWaits_cmd (s : State) : s.hostWaits.cmd = s.cmd := rfl
@[simp] theorem State.hostWaits_ev (s : State) : s.hostWaits.ev = s.ev := rfl
@[simp] theorem State.hostWaits_pc (s : State) : s.hostWaits.pc = s.pc := rfl
@[simp] theorem State.hostWaits_ill (s : State) : s.hostWaits.ill = s.ill := rfl
@[simp] theorem State.hostWaits_illCause (s : State) : s.hostWaits.illCause = s.illCause := rfl
@[simp] theorem State.hostWaits_illWord (s : State) : s.hostWaits.illWord = s.illWord := rfl
@[simp] theorem State.hostWaits_cfg (s : State) : s.hostWaits.cfg = s.cfg := rfl
@[simp] theorem State.hostWaits_chain (s : State) : s.hostWaits.chain = s.chain := rfl
@[simp] theorem State.hostWaits_host (s : State) : s.hostWaits.host = hostAfterStep s.host := rfl
@[simp] theorem State.hostWaits_free (s : State) : s.hostWaits.free = s.free := rfl

@[simp] theorem State.hostTaken_fb (s : State) : s.hostTaken.fb = s.fb := rfl
@[simp] theorem State.hostTaken_cs (s : State) : s.hostTaken.cs = s.cs := rfl
@[simp] theorem State.hostTaken_clk (s : State) : s.hostTaken.clk = s.clk := rfl
@[simp] theorem State.hostTaken_din (s : State) : s.hostTaken.din = s.din := rfl
@[simp] theorem State.hostTaken_phase (s : State) : s.hostTaken.phase = s.phase := rfl
@[simp] theorem State.hostTaken_cmd (s : State) : s.hostTaken.cmd = s.cmd := rfl
@[simp] theorem State.hostTaken_ev (s : State) : s.hostTaken.ev = s.ev := rfl
@[simp] theorem State.hostTaken_pc (s : State) : s.hostTaken.pc = s.pc := rfl
@[simp] theorem State.hostTaken_ill (s : State) : s.hostTaken.ill = s.ill := rfl
@[simp] theorem State.hostTaken_illCause (s : State) : s.hostTaken.illCause = s.illCause := rfl
@[simp] theorem State.hostTaken_illWord (s : State) : s.hostTaken.illWord = s.illWord := rfl
@[simp] theorem State.hostTaken_cfg (s : State) : s.hostTaken.cfg = s.cfg := rfl
@[simp] theorem State.hostTaken_chain (s : State) : s.hostTaken.chain = s.chain := rfl
@[simp] theorem State.hostTaken_host (s : State) : s.hostTaken.host = s.host.tail := rfl
@[simp] theorem State.hostTaken_free (s : State) : s.hostTaken.free = s.free := rfl

@[simp] theorem State.offering_fb (s : State) (w : CmdWord) : (s.offering w).fb = s.fb := rfl
@[simp] theorem State.offering_cs (s : State) (w : CmdWord) : (s.offering w).cs = s.cs := rfl
@[simp] theorem State.offering_clk (s : State) (w : CmdWord) : (s.offering w).clk = s.clk := rfl
@[simp] theorem State.offering_din (s : State) (w : CmdWord) : (s.offering w).din = s.din := rfl
@[simp] theorem State.offering_phase (s : State) (w : CmdWord) : (s.offering w).phase = .idle := rfl
@[simp] theorem State.offering_cmd (s : State) (w : CmdWord) : (s.offering w).cmd = s.cmd := rfl
@[simp] theorem State.offering_ev (s : State) (w : CmdWord) : (s.offering w).ev = s.ev := rfl
@[simp] theorem State.offering_pc (s : State) (w : CmdWord) : (s.offering w).pc = s.ev.length := rfl
@[simp] theorem State.offering_ill (s : State) (w : CmdWord) : (s.offering w).ill = s.ill := rfl
@[simp] theorem State.offering_illCause (s : State) (w : CmdWord) : (s.offering w).illCause = s.illCause := rfl
@[simp] theorem State.offering_illWord (s : State) (w : CmdWord) : (s.offering w).illWord = s.illWord := rfl
@[simp] theorem State.offering_cfg (s : State) (w : CmdWord) : (s.offering w).cfg = s.cfg := rfl
@[simp] theorem State.offering_chain (s : State) (w : CmdWord) : (s.offering w).chain = s.chain := rfl
@[simp] theorem State.offering_host (s : State) (w : CmdWord) : (s.offering w).host = .offer w :: s.host := rfl
@[simp] theorem State.offering_free (s : State) (w : CmdWord) : (s.offering w).free = s.free := rfl

@[simp] theorem State.performEvent_fb (s : State) (e : Event) :
    (performEvent s e).fb = s.fb := by cases e <;> rfl
@[simp] theorem State.performEvent_phase (s : State) (e : Event) :
    (performEvent s e).phase = s.phase := by cases e <;> rfl
@[simp] theorem State.performEvent_cmd (s : State) (e : Event) :
    (performEvent s e).cmd = s.cmd := by cases e <;> rfl
@[simp] theorem State.performEvent_ev (s : State) (e : Event) :
    (performEvent s e).ev = s.ev := by cases e <;> rfl
@[simp] theorem State.performEvent_pc (s : State) (e : Event) :
    (performEvent s e).pc = s.pc := by cases e <;> rfl
@[simp] theorem State.performEvent_ill (s : State) (e : Event) :
    (performEvent s e).ill = s.ill := by cases e <;> rfl
@[simp] theorem State.performEvent_illCause (s : State) (e : Event) :
    (performEvent s e).illCause = s.illCause := by cases e <;> rfl
@[simp] theorem State.performEvent_illWord (s : State) (e : Event) :
    (performEvent s e).illWord = s.illWord := by cases e <;> rfl
@[simp] theorem State.performEvent_cfg (s : State) (e : Event) :
    (performEvent s e).cfg = s.cfg := by cases e <;> rfl
@[simp] theorem State.performEvent_host (s : State) (e : Event) :
    (performEvent s e).host = s.host := by cases e <;> rfl
@[simp] theorem State.performEvent_free (s : State) (e : Event) :
    (performEvent s e).free = s.free := by cases e <;> rfl

@[simp] theorem State.performEvents_fb (s : State) (es : List Event) :
    (performEvents s es).fb = s.fb := by induction es generalizing s with
  | nil => rfl
  | cons e es ih => simp [performEvents] at ih ⊢; simp [ih]
@[simp] theorem State.performEvents_phase (s : State) (es : List Event) :
    (performEvents s es).phase = s.phase := by induction es generalizing s with
  | nil => rfl
  | cons e es ih => simp [performEvents] at ih ⊢; simp [ih]
@[simp] theorem State.performEvents_cmd (s : State) (es : List Event) :
    (performEvents s es).cmd = s.cmd := by induction es generalizing s with
  | nil => rfl
  | cons e es ih => simp [performEvents] at ih ⊢; simp [ih]
@[simp] theorem State.performEvents_ev (s : State) (es : List Event) :
    (performEvents s es).ev = s.ev := by induction es generalizing s with
  | nil => rfl
  | cons e es ih => simp [performEvents] at ih ⊢; simp [ih]
@[simp] theorem State.performEvents_pc (s : State) (es : List Event) :
    (performEvents s es).pc = s.pc := by induction es generalizing s with
  | nil => rfl
  | cons e es ih => simp [performEvents] at ih ⊢; simp [ih]
@[simp] theorem State.performEvents_ill (s : State) (es : List Event) :
    (performEvents s es).ill = s.ill := by induction es generalizing s with
  | nil => rfl
  | cons e es ih => simp [performEvents] at ih ⊢; simp [ih]
@[simp] theorem State.performEvents_illCause (s : State) (es : List Event) :
    (performEvents s es).illCause = s.illCause := by induction es generalizing s with
  | nil => rfl
  | cons e es ih => simp [performEvents] at ih ⊢; simp [ih]
@[simp] theorem State.performEvents_illWord (s : State) (es : List Event) :
    (performEvents s es).illWord = s.illWord := by induction es generalizing s with
  | nil => rfl
  | cons e es ih => simp [performEvents] at ih ⊢; simp [ih]
@[simp] theorem State.performEvents_cfg (s : State) (es : List Event) :
    (performEvents s es).cfg = s.cfg := by induction es generalizing s with
  | nil => rfl
  | cons e es ih => simp [performEvents] at ih ⊢; simp [ih]
@[simp] theorem State.performEvents_host (s : State) (es : List Event) :
    (performEvents s es).host = s.host := by induction es generalizing s with
  | nil => rfl
  | cons e es ih => simp [performEvents] at ih ⊢; simp [ih]
@[simp] theorem State.performEvents_free (s : State) (es : List Event) :
    (performEvents s es).free = s.free := by induction es generalizing s with
  | nil => rfl
  | cons e es ih => simp [performEvents] at ih ⊢; simp [ih]

@[simp] theorem State.raiseIll_fb (c : IllCause) (w : CmdWord) (s : State) :
    (raiseIll c w s).fb = s.fb := by unfold raiseIll; split <;> rfl
@[simp] theorem State.raiseIll_cs (c : IllCause) (w : CmdWord) (s : State) :
    (raiseIll c w s).cs = s.cs := by unfold raiseIll; split <;> rfl
@[simp] theorem State.raiseIll_clk (c : IllCause) (w : CmdWord) (s : State) :
    (raiseIll c w s).clk = s.clk := by unfold raiseIll; split <;> rfl
@[simp] theorem State.raiseIll_din (c : IllCause) (w : CmdWord) (s : State) :
    (raiseIll c w s).din = s.din := by unfold raiseIll; split <;> rfl
@[simp] theorem State.raiseIll_phase (c : IllCause) (w : CmdWord) (s : State) :
    (raiseIll c w s).phase = s.phase := by unfold raiseIll; split <;> rfl
@[simp] theorem State.raiseIll_cmd (c : IllCause) (w : CmdWord) (s : State) :
    (raiseIll c w s).cmd = s.cmd := by unfold raiseIll; split <;> rfl
@[simp] theorem State.raiseIll_ev (c : IllCause) (w : CmdWord) (s : State) :
    (raiseIll c w s).ev = s.ev := by unfold raiseIll; split <;> rfl
@[simp] theorem State.raiseIll_pc (c : IllCause) (w : CmdWord) (s : State) :
    (raiseIll c w s).pc = s.pc := by unfold raiseIll; split <;> rfl
@[simp] theorem State.raiseIll_cfg (c : IllCause) (w : CmdWord) (s : State) :
    (raiseIll c w s).cfg = s.cfg := by unfold raiseIll; split <;> rfl
@[simp] theorem State.raiseIll_chain (c : IllCause) (w : CmdWord) (s : State) :
    (raiseIll c w s).chain = s.chain := by unfold raiseIll; split <;> rfl
@[simp] theorem State.raiseIll_host (c : IllCause) (w : CmdWord) (s : State) :
    (raiseIll c w s).host = s.host := by unfold raiseIll; split <;> rfl
@[simp] theorem State.raiseIll_free (c : IllCause) (w : CmdWord) (s : State) :
    (raiseIll c w s).free = s.free := by unfold raiseIll; split <;> rfl

end Sys2Proof.Machine
end

