-- ==== Sys2Proof/Laws/Ops.lean ====
section
/-! SUPPORT. What each shared operation can do, once. -/

namespace Sys2Proof.Machine

/-! ## Framebuffer -/

theorem fbAddr_inj {r r' j j' : Nat} (hj : j < 256) (hj' : j' < 256) (h : fbAddr r j = fbAddr r' j') :
    r = r' ∧ j = j' := by unfold fbAddr at h; omega

theorem fbAddr_row_inj {r r' k : Nat} (h : fbAddr r k = fbAddr r' k) : r = r' := by
  unfold fbAddr at h; omega

theorem writeRows_read_other (f : Nat → Byte → Byte) (k : Nat) (fb : Memory) (a : Nat) :
    ∀ m, (∀ r, r < m → a ≠ fbAddr r k) → (writeRows f k m fb).read a = fb.read a
  | 0, _ => rfl
  | m + 1, h => by
    have ih := writeRows_read_other f k fb a m fun r hr => h r (by omega)
    rw [writeRows, Memory.read_write, if_neg (h m (by omega)).symm, ih]

theorem writeRows_read_row (f : Nat → Byte → Byte) (k : Nat) (fb : Memory) {r : Nat} :
    ∀ m, r < m → (writeRows f k m fb).read (fbAddr r k) = f r (fb.read (fbAddr r k))
  | 0, h => by omega
  | m + 1, h => by
    rw [writeRows, Memory.read_write]
    by_cases hr : r = m
    · subst hr
      rw [if_pos rfl, writeRows_read_other _ _ _ _ r fun r' hr' he => by
        have := fbAddr_row_inj he; omega]
    · rw [if_neg fun he => hr (fbAddr_row_inj he).symm]
      exact writeRows_read_row f k fb m (by omega)

theorem writeRows_wf (f : Nat → Byte → Byte) (k : Nat) {fb : Memory} (h : fb.wf) :
    ∀ m, (writeRows f k m fb).wf
  | 0 => h
  | m + 1 => Memory.write_wf (writeRows_wf f k h m) _ _

theorem mem_writeRows {f : Nat → Byte → Byte} {k : Nat} {fb : Memory} {c : Host.Cell} :
    ∀ {m}, c ∈ writeRows f k m fb → c ∈ fb ∨ ∃ r, r < m ∧ c.1 = fbAddr r k
  | 0, h => .inl h
  | m + 1, h => by
    rcases Memory.mem_write h with rfl | h
    · exact .inr ⟨m, by omega, rfl⟩
    · rcases mem_writeRows h with h | ⟨r, hr, he⟩
      · exact .inl h
      · exact .inr ⟨r, by omega, he⟩

theorem clearChips_read_other (fb : Memory) (a : Nat) :
    ∀ m, (∀ r j, r < 8 → j < m → a ≠ fbAddr r j) → (clearChips m fb).read a = fb.read a
  | 0, _ => rfl
  | m + 1, h => by
    rw [clearChips, writeRows_read_other _ _ _ _ 8 fun r hr => h r m hr (by omega)]
    exact clearChips_read_other fb a m fun r j hr hj => h r j hr (by omega)

theorem clearChips_read_cell (fb : Memory) {r j : Nat} (hr : r < 8) :
    ∀ m, j < m → (clearChips m fb).read (fbAddr r j) = 0x00
  | 0, h => by omega
  | m + 1, h => by
    rw [clearChips]
    by_cases hx : ∃ r', r' < 8 ∧ fbAddr r j = fbAddr r' m
    · obtain ⟨r', hr', he⟩ := hx
      rw [he, writeRows_read_row _ _ _ 8 hr']
    · rw [writeRows_read_other _ _ _ _ 8 fun r' hr' he => hx ⟨r', hr', he⟩]
      refine clearChips_read_cell fb hr m ?_
      by_contra hj
      have : j = m := by omega
      exact hx ⟨r, hr, by rw [this]⟩

theorem clearChips_wf {fb : Memory} (h : fb.wf) : ∀ m, (clearChips m fb).wf
  | 0 => h
  | m + 1 => writeRows_wf _ _ (clearChips_wf h m) 8

theorem mem_clearChips {fb : Memory} {c : Host.Cell} :
    ∀ {m}, c ∈ clearChips m fb → c ∈ fb ∨ ∃ r j, r < 8 ∧ j < m ∧ c.1 = fbAddr r j
  | 0, h => .inl h
  | m + 1, h => by
    rcases mem_writeRows h with h | ⟨r, hr, he⟩
    · rcases mem_clearChips h with h | ⟨r, j, hr, hj, he⟩
      · exact .inl h
      · exact .inr ⟨r, j, hr, by omega, he⟩
    · exact .inr ⟨r, m, hr, by omega, he⟩

/-! ## Events -/

@[simp] theorem performEvents_nil (s : State) : performEvents s [] = s := rfl

@[simp] theorem performEvents_cons (s : State) (e : Event) (es : List Event) :
    performEvents s (e :: es) = performEvents (performEvent s e) es := rfl

theorem performEvents_append (s : State) (es fs : List Event) :
    performEvents s (es ++ fs) = performEvents (performEvents s es) fs := by
  simp [performEvents]

/-- The pins and the chips after some events depend on the pins and the chips before them alone. -/
theorem performEvents_pins {s t : State} (hcs : s.cs = t.cs) (hclk : s.clk = t.clk) (hdin : s.din = t.din)
    (hchain : s.chain = t.chain) (es : List Event) :
    (performEvents s es).cs = (performEvents t es).cs ∧ (performEvents s es).clk = (performEvents t es).clk ∧
    (performEvents s es).din = (performEvents t es).din ∧
    (performEvents s es).chain = (performEvents t es).chain := by
  induction es generalizing s t with
  | nil => exact ⟨hcs, hclk, hdin, hchain⟩
  | cons e es ih =>
    apply ih <;> cases e <;> simp [performEvent, State.driveCS, State.driveCLK, State.driveDIN, *]

/-! ## Rejection -/

/-- Everything a rejection can do to the error status. -/
theorem raiseIll_status (c : IllCause) (w : CmdWord) (s : State) :
    (raiseIll c w s).ill = true ∧
    (s.ill = false → (raiseIll c w s).illCause = c.code ∧ (raiseIll c w s).illWord = w) ∧
    (s.ill = true → (raiseIll c w s).illCause = s.illCause ∧ (raiseIll c w s).illWord = s.illWord) := by
  unfold raiseIll
  cases h : s.ill <;> simp [h]

/-! ## The chips -/

@[simp] theorem length_chainShift (d : Bool) (c : List Chip) : (chainShift d c).length = c.length := by
  induction c generalizing d with
  | nil => rfl
  | cons x c ih => simp [chainShift, ih]

/-- A shift changes no register. -/
theorem chainShift_regs (d : Bool) (c : List Chip) : (chainShift d c).map (·.regs) = c.map (·.regs) := by
  induction c generalizing d with
  | nil => rfl
  | cons x c ih => simp [chainShift, ih]

/-- Everything a latch can do to a register. -/
theorem Chip.latch_read (c : Chip) (a : Nat) : c.latch.regs.read a =
    if a = (c.sr.extractLsb' 8 4).toNat ∧ a ≠ 0 then c.sr.extractLsb' 0 8 else c.regs.read a := by
  unfold Chip.latch
  by_cases h : c.sr.extractLsb' 8 4 = 0
  · rw [if_pos h, h]
    by_cases ha : a = 0 <;> simp [ha]
  · rw [if_neg h]
    have h0 : (c.sr.extractLsb' 8 4).toNat ≠ 0 := fun h' => h (BitVec.eq_of_toNat_eq (by simpa using h'))
    rw [Memory.read_write]
    by_cases ha : a = (c.sr.extractLsb' 8 4).toNat
    · rw [if_pos ha.symm, if_pos ⟨ha, ha ▸ h0⟩]
    · rw [if_neg (Ne.symm ha), if_neg fun h' => ha h'.1]

@[simp] theorem Chip.latch_sr (c : Chip) : c.latch.sr = c.sr := by
  unfold Chip.latch; split <;> rfl

theorem Chip.latch_inv {c : Chip} (h : c.regs.wf ∧ ∀ x ∈ c.regs, 1 ≤ x.1 ∧ x.1 ≤ 15) :
    c.latch.regs.wf ∧ ∀ x ∈ c.latch.regs, 1 ≤ x.1 ∧ x.1 ≤ 15 := by
  unfold Chip.latch
  split
  · exact h
  · next h0 =>
    refine ⟨Memory.write_wf h.1 _ _, fun x hx => ?_⟩
    rcases Memory.mem_write hx with rfl | hx
    · have h1 : (c.sr.extractLsb' 8 4).toNat ≠ 0 := fun h' => h0 (BitVec.eq_of_toNat_eq (by simpa using h'))
      have h2 := (c.sr.extractLsb' 8 4).isLt
      constructor <;> simp only <;> omega
    · exact h.2 x hx

/-- An event keeps the number of chips. -/
@[simp] theorem length_performEvent_chain (s : State) (e : Event) :
    (performEvent s e).chain.length = s.chain.length := by
  cases e <;> simp [performEvent] <;> split <;> simp

@[simp] theorem length_performEvents_chain (s : State) (es : List Event) :
    (performEvents s es).chain.length = s.chain.length := by
  induction es generalizing s with
  | nil => rfl
  | cons e es ih => rw [performEvents_cons, ih, length_performEvent_chain]

/-- A shift keeps whatever holds of every chip's registers. -/
theorem forall_chainShift {P : Memory → Prop} (d : Bool) {l : List Chip} (h : ∀ c ∈ l, P c.regs) :
    ∀ c ∈ chainShift d l, P c.regs := fun c hc => by
  have hm : c.regs ∈ (chainShift d l).map (·.regs) := List.mem_map_of_mem hc
  rw [chainShift_regs] at hm
  obtain ⟨y, hy, he⟩ := List.mem_map.mp hm
  exact he ▸ h y hy

/-! ## The chips a reset meets -/

/-- Everything free registers change: the listed ones, each to the value of the draw. -/
theorem freeRegs_read (k p : Nat) (as : List Nat) (m : Memory) (a : Nat) :
    (freeRegs k p as m).read a = if a ∈ as then Config.freeReg k p a else m.read a := by
  induction as generalizing m with
  | nil => rfl
  | cons b as ih =>
    have hs : freeRegs k p (b :: as) m = freeRegs k p as (m.write b (Config.freeReg k p b)) := rfl
    rw [hs, ih, Memory.read_write]
    by_cases ha : a ∈ as
    · rw [if_pos ha, if_pos (List.mem_cons_of_mem _ ha)]
    · by_cases hb : b = a
      · rw [if_neg ha, if_pos hb, if_pos (hb ▸ List.mem_cons_self), hb]
      · rw [if_neg ha, if_neg hb, if_neg (by simp [ha, Ne.symm hb])]

theorem freeRegs_inv {k p : Nat} {as : List Nat} (has : ∀ a ∈ as, 1 ≤ a ∧ a ≤ 15) {m : Memory}
    (h : m.wf ∧ ∀ x ∈ m, 1 ≤ x.1 ∧ x.1 ≤ 15) :
    (freeRegs k p as m).wf ∧ ∀ x ∈ freeRegs k p as m, 1 ≤ x.1 ∧ x.1 ≤ 15 := by
  induction as generalizing m with
  | nil => exact h
  | cons b as ih =>
    refine ih (fun a ha => has a (List.mem_cons_of_mem _ ha)) ⟨Memory.write_wf h.1 _ _, fun x hx => ?_⟩
    rcases Memory.mem_write hx with rfl | hx
    · exact has b List.mem_cons_self
    · exact h.2 x hx

theorem leftByReset_range (cfg : Config) : ∀ a ∈ leftByReset cfg, 1 ≤ a ∧ a ≤ 15 := by
  unfold leftByReset
  cases cfg.cadence <;> decide

theorem Chip.interrupted_sr (cfg : Config) (k p : Nat) (c : Chip) : (c.interrupted cfg k p).sr = c.sr :=
  Chip.latch_sr c

/-- Everything an interrupting reset can do to a register of a chip. -/
theorem Chip.interrupted_read (cfg : Config) (k p : Nat) (c : Chip) (a : Nat) :
    (c.interrupted cfg k p).regs.read a =
      if a ∈ leftByReset cfg then Config.freeReg k p a else c.latch.regs.read a := freeRegs_read ..

theorem Chip.interrupted_inv (cfg : Config) (k p : Nat) {c : Chip}
    (h : c.regs.wf ∧ ∀ x ∈ c.regs, 1 ≤ x.1 ∧ x.1 ≤ 15) :
    (c.interrupted cfg k p).regs.wf ∧ ∀ x ∈ (c.interrupted cfg k p).regs, 1 ≤ x.1 ∧ x.1 ≤ 15 :=
  freeRegs_inv (leftByReset_range cfg) (Chip.latch_inv h)

theorem Chip.unknown_inv (k p : Nat) :
    (Chip.unknown k p).regs.wf ∧ ∀ x ∈ (Chip.unknown k p).regs, 1 ≤ x.1 ∧ x.1 ≤ 15 :=
  freeRegs_inv (by decide) ⟨Memory.nil_wf, by simp⟩

@[simp] theorem length_fitChain (n k : Nat) (l : List Chip) : (fitChain n k l).length = n := by
  simp [fitChain]; omega

/-- A chain of the right length is kept. -/
theorem fitChain_self {n : Nat} {l : List Chip} (k : Nat) (h : l.length = n) : fitChain n k l = l := by
  simp [fitChain, ← h]

theorem getElem?_fitChain_old {n : Nat} (k : Nat) {l : List Chip} {i : Nat} (hn : i < n) (hl : i < l.length) :
    (fitChain n k l)[i]? = l[i]? := by
  rw [fitChain, List.getElem?_append_left (by simp; omega), List.getElem?_take_of_lt hn]

theorem getElem?_fitChain_new {n : Nat} (k : Nat) {l : List Chip} {i : Nat} (hn : i < n) (hl : l.length ≤ i) :
    (fitChain n k l)[i]? = some (Chip.unknown k (i + 1)) := by
  have hm : min n l.length = l.length := by omega
  rw [fitChain, List.getElem?_append_right (by simp; omega), List.length_take, hm, List.getElem?_map,
    List.getElem?_range (by omega), Option.map_some]
  congr 2; omega

/-- Whatever holds of the chips kept and of unknown chips holds of the chain. -/
theorem forall_fitChain {P : Chip → Prop} (n k : Nat) {l : List Chip} (h : ∀ c ∈ l, P c)
    (hu : ∀ p, P (Chip.unknown k p)) : ∀ c ∈ fitChain n k l, P c := fun c hc => by
  rcases List.mem_append.mp hc with hc | hc
  · exact h c (List.mem_of_mem_take hc)
  · obtain ⟨i, -, rfl⟩ := List.mem_map.mp hc
    exact hu _

@[simp] theorem length_resetChips (cfg : Config) (s : State) : (resetChips cfg s).length = cfg.n :=
  length_fitChain ..

theorem resetChips_inv (cfg : Config) {s : State}
    (h : ∀ c ∈ s.chain, c.regs.wf ∧ ∀ x ∈ c.regs, 1 ≤ x.1 ∧ x.1 ≤ 15) :
    ∀ c ∈ resetChips cfg s, c.regs.wf ∧ ∀ x ∈ c.regs, 1 ≤ x.1 ∧ x.1 ≤ 15 := by
  refine forall_fitChain cfg.n s.free (fun c hc => ?_) (Chip.unknown_inv s.free)
  cases hcs : s.cs with
  | true => rw [hcs, if_pos rfl] at hc; exact h c hc
  | false =>
    rw [hcs, if_neg Bool.false_ne_true] at hc
    obtain ⟨i, hi, rfl⟩ := List.mem_mapIdx.mp hc
    exact Chip.interrupted_inv _ _ _ (h _ (List.getElem_mem hi))

/-- The chip at a position that a reset finds and keeps: unchanged outside a frame, interrupted inside one. -/
theorem resetChips_old (cfg : Config) (s : State) {i : Nat} (hn : i < cfg.n) (hl : i < s.chain.length) :
    (resetChips cfg s)[i]? = some (if s.cs then s.chain[i] else s.chain[i].interrupted cfg s.free (i + 1)) := by
  cases hcs : s.cs <;>
    simp [resetChips, hcs, getElem?_fitChain_old s.free hn, hl]

/-- The chip at a position that comes new is unknown. -/
theorem resetChips_new (cfg : Config) (s : State) {i : Nat} (hn : i < cfg.n) (hl : s.chain.length ≤ i) :
    (resetChips cfg s)[i]? = some (Chip.unknown s.free (i + 1)) := by
  cases hcs : s.cs <;>
    simp [resetChips, hcs, getElem?_fitChain_new s.free hn, hl]

end Sys2Proof.Machine
end

