-- ==== Sys2Proof/Laws/Transport.lean ====
section
/-! SUPPORT. The events of pairs, frames and wire programs: as bits, as lengths, as read off the wire, and under the framing
discipline. -/

namespace Sys2Proof.Machine

/-- The 16 bits of a pair (R35, R55). -/
def pairBits (p : WirePair) : List Bool := wordBits p.reg p.value

/-- The bits of several pairs in order. -/
def bitsOf (ps : List WirePair) : List Bool := ps.flatMap pairBits

theorem pairBits_eq (p : WirePair) : pairBits p =
    [p.reg.getLsbD 7, p.reg.getLsbD 6, p.reg.getLsbD 5, p.reg.getLsbD 4,
     p.reg.getLsbD 3, p.reg.getLsbD 2, p.reg.getLsbD 1, p.reg.getLsbD 0,
     p.value.getLsbD 7, p.value.getLsbD 6, p.value.getLsbD 5, p.value.getLsbD 4,
     p.value.getLsbD 3, p.value.getLsbD 2, p.value.getLsbD 1, p.value.getLsbD 0] := by
  simp only [pairBits, wordBits, List.range, List.range.loop, List.map, BitVec.getLsbD_append]
  rfl

@[simp] theorem length_pairBits (p : WirePair) : (pairBits p).length = 16 := by simp [pairBits_eq]

/-- A pair is its bits, each as R62 sends a bit. -/
theorem sendPair_eq_bits (p : WirePair) : sendPair p = (pairBits p).flatMap sendBit := by
  rw [pairBits_eq]; rfl

theorem flatMap_sendPair (ps : List WirePair) : ps.flatMap sendPair = (bitsOf ps).flatMap sendBit := by
  induction ps with
  | nil => rfl
  | cons p ps ih => simp [bitsOf, List.flatMap_cons, sendPair_eq_bits, ih]

/-- A frame is CS low, the settle wait, the bits of its pairs, CS high (R61 to R66). -/
theorem frame_eq_bits (ps : List WirePair) :
    frame ps = .cs false :: .wait .settle :: ((bitsOf ps).flatMap sendBit ++ [.cs true]) := by
  simp [frame, beginTransfer, endTransfer, flatMap_sendPair]

/-! ## Lengths -/

theorem length_bitsOf (ps : List WirePair) : (bitsOf ps).length = 16 * ps.length := by
  induction ps with
  | nil => rfl
  | cons p ps ih =>
    rw [bitsOf, List.flatMap_cons, List.length_append, length_pairBits, List.length_cons]
    rw [bitsOf] at ih; omega

theorem length_flatMap_sendBit (bs : List Bool) : (bs.flatMap sendBit).length = 3 * bs.length := by
  induction bs with
  | nil => rfl
  | cons b bs ih => simp [List.flatMap_cons, sendBit] at ih ⊢; omega

theorem length_frame (ps : List WirePair) : (frame ps).length = 48 * ps.length + 3 := by
  rw [frame_eq_bits, List.length_cons, List.length_cons, List.length_append, length_flatMap_sendBit,
    length_bitsOf, List.length_singleton]
  omega

/-- Framed wire programs: the events of a list of frames. -/
theorem length_flatMap_frame (fs : List (List WirePair)) :
    (fs.flatMap frame).length = 48 * fs.flatten.length + 3 * fs.length := by
  induction fs with
  | nil => rfl
  | cons f fs ih =>
    rw [List.flatMap_cons, List.length_append, ih, length_frame, List.flatten_cons, List.length_append,
      List.length_cons]
    omega

/-! ## Reading the wire -/

/-- The last bit sent, or the level before. -/
def lastBit (d : Bool) (bs : List Bool) : Bool := bs.getLast?.getD d

theorem lastBit_append (d : Bool) (as bs : List Bool) : lastBit d (as ++ bs) = lastBit (lastBit d as) bs := by
  simp only [lastBit, List.getLast?_append]
  cases bs.getLast? <;> rfl

theorem bitsOf_append (ps qs : List WirePair) : bitsOf (ps ++ qs) = bitsOf ps ++ bitsOf qs := by
  simp [bitsOf]

theorem readFrames_bits (d : Bool) (acc bs : List Bool) (es : List Event) :
    readFrames false false d acc (bs.flatMap sendBit ++ es) =
      readFrames false false (lastBit d bs) (acc ++ bs) es := by
  induction bs generalizing d acc with
  | nil => simp [lastBit]
  | cons b bs ih =>
    have : lastBit d (b :: bs) = lastBit b bs := by simp [lastBit, List.getLast?_cons]
    simp [List.flatMap_cons, sendBit, readFrames, ih, this]

/-- A frame is read as the bits of its pairs, and leaves the pins at rest. -/
theorem readFrames_frame (d : Bool) (ps : List WirePair) (es : List Event) :
    readFrames true false d [] (frame ps ++ es) =
      bitsOf ps :: readFrames true false (lastBit d (bitsOf ps)) [] es := by
  rw [frame_eq_bits]
  simp [readFrames, readFrames_bits]

/-- A list of frames is read as their bits. -/
theorem readFrames_frames (d : Bool) (fs : List (List WirePair)) (es : List Event) :
    readFrames true false d [] (fs.flatMap frame ++ es) =
      fs.map bitsOf ++ readFrames true false (lastBit d (fs.flatMap bitsOf)) [] es := by
  induction fs generalizing d with
  | nil => simp [lastBit]
  | cons f fs ih =>
    have : lastBit (lastBit d (bitsOf f)) (fs.flatMap bitsOf) = lastBit d ((f :: fs).flatMap bitsOf) := by
      simp only [lastBit, List.flatMap_cons, List.getLast?_append]
      cases (fs.flatMap bitsOf).getLast? <;> rfl
    rw [List.flatMap_cons, List.append_assoc, readFrames_frame, ih, this]
    rfl

/-- What a receiver reads of a wire program: the bits of the frames the cadence makes of it. -/
theorem wireFrames_frames (d : Bool) (c : Cadence) (k : ProgKind) (gs : List (List WirePair)) :
    wireFrames d (frames c k gs) = (framing c k gs).map bitsOf := by
  have := readFrames_frames d (framing c k gs) []
  rw [List.append_nil] at this
  rw [wireFrames, frames, this, readFrames, List.append_nil]

theorem bitsOf_regGroup (n : Nat) (reg : Byte) (vals : Nat → Byte) :
    bitsOf (regGroup reg ((List.range n).map vals)) = groupBits n reg vals := by
  simp [bitsOf, regGroup, groupBits, List.flatMap_map, pairBits]

theorem bitsOf_bcast (n : Nat) (reg v : Byte) : bitsOf (bcast n reg v) = groupBits n reg fun _ => v := by
  rw [bcast, ← bitsOf_regGroup, List.map_const', List.length_range]

theorem bitsOf_flatten (gs : List (List WirePair)) : bitsOf gs.flatten = gs.flatMap bitsOf := by
  induction gs with
  | nil => rfl
  | cons g gs ih => rw [List.flatten_cons, bitsOf, List.flatMap_append, List.flatMap_cons, ← ih]; rfl

/-! ## The framing discipline -/

theorem framed_bits (bs : List Bool) (es : List Event) :
    framed false false (bs.flatMap sendBit ++ es) = framed false false es := by
  induction bs with
  | nil => rfl
  | cons b bs ih => simpa [List.flatMap_cons, sendBit, framed] using ih

theorem framed_frame (ps : List WirePair) (es : List Event) :
    framed true false (frame ps ++ es) = framed true false es := by
  rw [frame_eq_bits]
  simp [framed, framed_bits]

theorem framed_frames (fs : List (List WirePair)) (es : List Event) :
    framed true false (fs.flatMap frame ++ es) = framed true false es := by
  induction fs with
  | nil => rfl
  | cons f fs ih => rw [List.flatMap_cons, List.append_assoc, framed_frame, ih]

theorem framed_writeDisplay (cfg : Config) (fb : Memory) : framed true false (writeDisplay cfg fb) = true := by
  have := framed_frames (framing cfg.cadence .flushProg (flushGroups cfg.n fb)) []
  rwa [List.append_nil] at this

theorem framed_testEvents (cfg : Config) : framed true false (testEvents cfg) = true := by
  simp only [testEvents, frames, List.append_assoc, List.cons_append, List.nil_append]
  rw [framed_frames, framed, framed_frames]
  rfl

theorem framed_resetSeq (cfg : Config) : framed true false (resetSeq cfg) = true := by
  rw [resetSeq, initEvents, frames, framed_frames]
  exact framed_writeDisplay cfg []

/-! ## What the cadences share and where they differ -/

/-- Every cadence sends the same pairs in the same order. -/
theorem flatten_framing (c : Cadence) (k : ProgKind) (gs : List (List WirePair)) :
    (framing c k gs).flatten = gs.flatten := by
  have singles : ∀ gs : List (List WirePair),
      (gs.flatMap fun g => g.map fun p => [p]).flatten = gs.flatten := fun gs => by
    induction gs with
    | nil => rfl
    | cons g gs ih => simp [List.flatMap_cons, ih, ← List.flatMap_def]
  cases c <;> cases k <;> simp [framing, singles]

theorem length_flatten_flushGroups (n : Nat) (fb : Memory) : (flushGroups n fb).flatten.length = 8 * n := by
  rw [flushGroups, show List.range 8 = [0, 1, 2, 3, 4, 5, 6, 7] from rfl]
  simp [regGroup, rowValues]
  omega

/-! ## Event lists are never empty (R59) -/

theorem writeDisplay_ne_nil (cfg : Config) (fb : Memory) (hn : 1 ≤ cfg.n) : 0 < (writeDisplay cfg fb).length := by
  rw [writeDisplay, frames, length_flatMap_frame, flatten_framing, length_flatten_flushGroups]
  omega

theorem testEvents_ne_nil (cfg : Config) : 0 < (testEvents cfg).length := by simp [testEvents]

theorem resetSeq_ne_nil (cfg : Config) (hn : 1 ≤ cfg.n) : 0 < (resetSeq cfg).length := by
  have := writeDisplay_ne_nil cfg [] hn
  rw [resetSeq, List.length_append]; omega

end Sys2Proof.Machine
end

