-- ==== Sys2Proof/Laws/Chain.lean ====
section
/-! SUPPORT. What bits, pairs and frames do to the reference chain: 16 clocked bits are one word in at position 1, every
word one position on; a frame is its words and then one latch of every chip. -/

namespace Sys2Proof.Machine

/-! ## One shift register under a stream of bits -/

/-- The register after some bits. -/
def srAfter (x : BitVec 16) : List Bool → BitVec 16
  | [] => x
  | b :: bs => srAfter (x.shiftConcat b) bs

/-- The bits it hands on meanwhile. -/
def srOut (x : BitVec 16) : List Bool → List Bool
  | [] => []
  | b :: bs => x.msb :: srOut (x.shiftConcat b) bs

/-- Several bits into a chain. -/
def shiftBits (l : List Chip) (bs : List Bool) : List Chip := bs.foldl (fun l b => chainShift b l) l

@[simp] theorem shiftBits_nil (l : List Chip) : shiftBits l [] = l := rfl

@[simp] theorem shiftBits_cons_bit (l : List Chip) (b : Bool) (bs : List Bool) :
    shiftBits l (b :: bs) = shiftBits (chainShift b l) bs := rfl

theorem shiftBits_append (l : List Chip) (as bs : List Bool) :
    shiftBits l (as ++ bs) = shiftBits (shiftBits l as) bs := by simp [shiftBits]

/-- Position 1 takes the bits, the rest of the chain takes what it hands on. -/
theorem shiftBits_cons (c : Chip) (l : List Chip) (bs : List Bool) :
    shiftBits (c :: l) bs = { c with sr := srAfter c.sr bs } :: shiftBits l (srOut c.sr bs) := by
  induction bs generalizing c l with
  | nil => rfl
  | cons b bs ih => rw [shiftBits_cons_bit, chainShift, ih]; rfl

theorem shiftBits_empty (bs : List Bool) : shiftBits [] bs = [] := by
  induction bs with
  | nil => rfl
  | cons b bs ih => rw [shiftBits_cons_bit, chainShift, ih]

/-- The 16 bits of a word, bit 15 first. -/
def bits16 (w : BitVec 16) : List Bool := (List.range 16).map fun i => w.getLsbD (15 - i)

theorem bits16_eq (w : BitVec 16) : bits16 w =
    [w.getLsbD 15, w.getLsbD 14, w.getLsbD 13, w.getLsbD 12, w.getLsbD 11, w.getLsbD 10, w.getLsbD 9,
     w.getLsbD 8, w.getLsbD 7, w.getLsbD 6, w.getLsbD 5, w.getLsbD 4, w.getLsbD 3, w.getLsbD 2,
     w.getLsbD 1, w.getLsbD 0] := rfl

theorem srAfter_bits16 (x w : BitVec 16) : srAfter x (bits16 w) = w := by
  apply BitVec.eq_of_getLsbD_eq
  intro i hi
  rw [bits16_eq]
  simp only [srAfter, BitVec.getLsbD_shiftConcat]
  interval_cases i <;> simp

theorem srOut_bits16 (x w : BitVec 16) : srOut x (bits16 w) = bits16 x := by
  rw [bits16_eq, bits16_eq]
  simp only [srOut, BitVec.msb_eq_getLsbD_last, BitVec.getLsbD_shiftConcat]
  simp

/-! ## Words -/

/-- A word in at position 1, every chip's word one position on. -/
def shiftWord (w : BitVec 16) : List Chip → List Chip
  | [] => []
  | c :: l => { c with sr := w } :: shiftWord c.sr l

theorem shiftBits_bits16 (w : BitVec 16) (l : List Chip) : shiftBits l (bits16 w) = shiftWord w l := by
  induction l generalizing w with
  | nil => exact shiftBits_empty _
  | cons c l ih => rw [shiftBits_cons, srAfter_bits16, srOut_bits16, ih]; rfl

/-- The word of a pair (R55). -/
def WirePair.word (p : WirePair) : BitVec 16 := p.reg ++ p.value

/-- Several words in, in order. -/
def shiftWords (l : List Chip) (ws : List (BitVec 16)) : List Chip := ws.foldl (fun l w => shiftWord w l) l

theorem shiftBits_bitsOf (l : List Chip) (ps : List WirePair) :
    shiftBits l (bitsOf ps) = shiftWords l (ps.map WirePair.word) := by
  induction ps generalizing l with
  | nil => rfl
  | cons p ps ih =>
    have hb : pairBits p = bits16 p.word := rfl
    rw [bitsOf, List.flatMap_cons, shiftBits_append, hb, shiftBits_bits16]
    exact ih _

@[simp] theorem length_shiftWord (w : BitVec 16) (l : List Chip) : (shiftWord w l).length = l.length := by
  induction l generalizing w with
  | nil => rfl
  | cons c l ih => simp [shiftWord, ih]

@[simp] theorem length_shiftWords (l : List Chip) (ws : List (BitVec 16)) :
    (shiftWords l ws).length = l.length := by
  induction ws generalizing l with
  | nil => rfl
  | cons w ws ih => exact (ih _).trans (length_shiftWord w l)

/-- Words moved in leave every chip's registers alone. -/
theorem shiftWord_regs (w : BitVec 16) (l : List Chip) : (shiftWord w l).map (·.regs) = l.map (·.regs) := by
  induction l generalizing w with
  | nil => rfl
  | cons c l ih => simp [shiftWord, ih]

theorem shiftWords_regs (l : List Chip) (ws : List (BitVec 16)) :
    (shiftWords l ws).map (·.regs) = l.map (·.regs) := by
  induction ws generalizing l with
  | nil => rfl
  | cons w ws ih => exact (ih _).trans (shiftWord_regs w l)

/-- One word in: the shift registers of the chain. -/
theorem shiftWord_srs (w : BitVec 16) (l : List Chip) :
    (shiftWord w l).map (·.sr) = (w :: l.map (·.sr)).take l.length := by
  induction l generalizing w with
  | nil => rfl
  | cons c l ih => simp [shiftWord, ih]

/-- Several words in: the last one stands at position 1, the others behind it, older contents further on. -/
theorem shiftWords_srs (l : List Chip) (ws : List (BitVec 16)) :
    (shiftWords l ws).map (·.sr) = (ws.reverse ++ l.map (·.sr)).take l.length := by
  induction ws generalizing l with
  | nil => simp [shiftWords]
  | cons w ws ih =>
    have h := ih (shiftWord w l)
    rw [length_shiftWord, shiftWord_srs] at h
    refine h.trans ?_
    rw [List.reverse_cons, List.append_assoc, List.singleton_append, List.take_append, List.take_append]
    congr 1
    rw [List.take_take, Nat.min_eq_left (Nat.sub_le _ _)]

/-! ## Frames -/

theorem performEvents_bits (s : State) (hcs : s.cs = false) (hclk : s.clk = false) (bs : List Bool) :
    (performEvents s (bs.flatMap sendBit)).cs = false ∧ (performEvents s (bs.flatMap sendBit)).clk = false ∧
    (performEvents s (bs.flatMap sendBit)).din = lastBit s.din bs ∧
    (performEvents s (bs.flatMap sendBit)).chain = shiftBits s.chain bs := by
  induction bs generalizing s with
  | nil => exact ⟨hcs, hclk, rfl, rfl⟩
  | cons b bs ih =>
    have hl : lastBit s.din (b :: bs) = lastBit b bs := by simp [lastBit, List.getLast?_cons]
    rw [List.flatMap_cons, performEvents_append, hl]
    have h := ih (performEvents s (sendBit b)) (by simp [sendBit, performEvent, hcs])
      (by simp [sendBit, performEvent])
    simpa [sendBit, performEvent, hcs, hclk] using h

/-- A frame from CLK = 0: the words of its pairs shifted in, then every chip latches; the pins are at rest after it. -/
theorem performEvents_frame (s : State) (hclk : s.clk = false) (ps : List WirePair) :
    (performEvents s (frame ps)).cs = true ∧ (performEvents s (frame ps)).clk = false ∧
    (performEvents s (frame ps)).din = lastBit s.din (bitsOf ps) ∧
    (performEvents s (frame ps)).chain = (shiftWords s.chain (ps.map WirePair.word)).map Chip.latch := by
  rw [frame_eq_bits, performEvents_cons, performEvents_cons, performEvents_append]
  obtain ⟨h1, h2, h3, h4⟩ := performEvents_bits (s.driveCS false) rfl hclk (bitsOf ps)
  simp only [performEvent, performEvents_cons, performEvents_nil, State.driveCS_cs, State.driveCS_clk,
    State.driveCS_din, State.driveCS_chain, h1, h2, h3, h4, shiftBits_bitsOf]
  simp

/-- R46: an event that is no CS rising edge leaves the registers of every chip alone. -/
theorem performEvent_regs {e : Event} (h : e ≠ .cs true) (s : State) :
    (performEvent s e).chain.map (·.regs) = s.chain.map (·.regs) := by
  cases e with
  | cs l => cases l <;> simp_all [performEvent]
  | clk l => simp only [performEvent, State.driveCLK_chain]; split <;> simp [chainShift_regs]
  | din l => rfl
  | wait k => rfl

theorem performEvents_regs {es : List Event} (h : .cs true ∉ es) (s : State) :
    (performEvents s es).chain.map (·.regs) = s.chain.map (·.regs) := by
  induction es generalizing s with
  | nil => rfl
  | cons e es ih =>
    rw [performEvents_cons, ih fun h' => h (List.mem_cons_of_mem _ h'),
      performEvent_regs fun he => h (he ▸ List.mem_cons_self)]

/-- Inside a frame, before its closing edge, no CS rising edge comes. -/
theorem cs_true_notMem_take_frame (ps : List WirePair) {k : Nat} (hk : k < (frame ps).length) :
    .cs true ∉ (frame ps).take k := by
  have hb : ∀ bs : List Bool, .cs true ∉ bs.flatMap sendBit := fun bs => by simp [sendBit]
  have he : frame ps = (.cs false :: .wait .settle :: (bitsOf ps).flatMap sendBit) ++ [.cs true] := by
    rw [frame_eq_bits]; rfl
  rw [he, List.length_append, List.length_singleton] at hk
  rw [he, List.take_append_of_le_length (by omega)]
  exact fun h => hb (bitsOf ps) (by simpa using List.mem_of_mem_take h)

/-! ## One chip after a frame -/

theorem chainSR_eq (l : List Chip) (p : Nat) : chainSR l p = (l.map (·.sr))[p - 1]?.getD 0 := by
  simp only [chainSR, List.getElem?_map]
  cases l[p - 1]? <;> rfl

theorem chainReg_eq (l : List Chip) (p a : Nat) :
    chainReg l p a = ((l.map (·.regs))[p - 1]?.getD []).read a := by
  simp only [chainReg, List.getElem?_map]
  cases l[p - 1]? <;> rfl

/-- Chips with the same registers read alike. -/
theorem chainReg_congr {l l' : List Chip} (h : l.map (·.regs) = l'.map (·.regs)) (p a : Nat) :
    chainReg l p a = chainReg l' p a := by rw [chainReg_eq, h, ← chainReg_eq]

@[simp] theorem chainReg_shiftWords (l : List Chip) (ws : List (BitVec 16)) (p a : Nat) :
    chainReg (shiftWords l ws) p a = chainReg l p a := by
  rw [chainReg_eq, shiftWords_regs, ← chainReg_eq]

@[simp] theorem chainSR_latch (l : List Chip) (p : Nat) : chainSR (l.map Chip.latch) p = chainSR l p := by
  simp [chainSR_eq, Function.comp_def]

/-- Every chip of the chain latches its own word: address bits 11..8, data bits 7..0, address 0 a no-op. -/
theorem chainReg_latch (l : List Chip) (p a : Nat) : chainReg (l.map Chip.latch) p a =
    if a = ((chainSR l p).extractLsb' 8 4).toNat ∧ a ≠ 0 then (chainSR l p).extractLsb' 0 8
    else chainReg l p a := by
  have hz : (Chip.powerUp.sr.extractLsb' 8 4).toNat = 0 := by decide
  have key : ∀ o : Option Chip, ((o.map Chip.latch).getD Chip.powerUp).regs.read a =
      if a = ((o.getD Chip.powerUp).sr.extractLsb' 8 4).toNat ∧ a ≠ 0 then (o.getD Chip.powerUp).sr.extractLsb' 0 8
      else (o.getD Chip.powerUp).regs.read a := by
    rintro (_ | c)
    · rw [Option.map_none, Option.getD_none, hz, if_neg fun h => h.2 h.1]
    · exact Chip.latch_read c a
  rw [chainReg, List.getElem?_map]
  exact key l[p - 1]?

/-- With as many words as chips, position `p` holds the `p`-th word from the end. -/
theorem chainSR_shiftWords (l : List Chip) (ws : List (BitVec 16)) {p : Nat} (hp : 1 ≤ p) (hl : p ≤ l.length)
    (hw : p ≤ ws.length) : chainSR (shiftWords l ws) p = ws.getD (ws.length - p) 0 := by
  have h1 : p - 1 < ws.reverse.length := by rw [List.length_reverse]; omega
  have h2 : ws.length - 1 - (p - 1) = ws.length - p := by omega
  have h3 : p - 1 < l.length := by omega
  have h4 : p - 1 < ws.length := by omega
  have h5 : (((ws.reverse ++ l.map (·.sr)).take l.length))[p - 1]? = ws[ws.length - p]? := by
    rw [List.getElem?_take_of_lt h3, List.getElem?_append_left h1, List.getElem?_reverse h4, h2]
  rw [chainSR_eq, shiftWords_srs, h5, List.getD_eq_getElem?_getD]

theorem getLsbD_word (p : WirePair) (i : Nat) :
    p.word.getLsbD i = if i < 8 then p.value.getLsbD i else p.reg.getLsbD (i - 8) :=
  BitVec.getLsbD_append

theorem word_fields (p : WirePair) :
    p.word.extractLsb' 0 8 = p.value ∧ (p.word.extractLsb' 8 4).toNat = p.reg.toNat % 16 := by
  constructor
  · apply BitVec.eq_of_getLsbD_eq
    intro i hi
    rw [BitVec.getLsbD_extractLsb', Nat.zero_add, getLsbD_word, if_pos hi, decide_eq_true hi, Bool.true_and]
  · have : p.word.extractLsb' 8 4 = p.reg.extractLsb' 0 4 := by
      apply BitVec.eq_of_getLsbD_eq
      intro i hi
      rw [BitVec.getLsbD_extractLsb', BitVec.getLsbD_extractLsb', getLsbD_word, if_neg (by omega),
        Nat.add_sub_cancel_left, Nat.zero_add]
    rw [this]; simp

/-- One register of one chip after a frame with at least `p` pairs: the pair `p`-th from the end is the one latched. -/
theorem chainReg_frame (s : State) (hclk : s.clk = false) (ps : List WirePair) {p : Nat} (hp : 1 ≤ p)
    (hl : p ≤ s.chain.length) (hw : p ≤ ps.length) (a : Nat) :
    chainReg (performEvents s (frame ps)).chain p a =
      if a = (ps.getD (ps.length - p) ⟨0, 0⟩).reg.toNat % 16 ∧ a ≠ 0 then (ps.getD (ps.length - p) ⟨0, 0⟩).value
      else chainReg s.chain p a := by
  have hsr : chainSR (shiftWords s.chain (ps.map WirePair.word)) p = (ps.getD (ps.length - p) ⟨0, 0⟩).word := by
    have hlt : ps.length - p < ps.length := by omega
    rw [chainSR_shiftWords _ _ hp hl (by simpa using hw), List.length_map]
    simp [List.getD_eq_getElem?_getD, hlt]
  obtain ⟨h0, h8⟩ := word_fields (ps.getD (ps.length - p) ⟨0, 0⟩)
  rw [(performEvents_frame s hclk ps).2.2.2, chainReg_latch, hsr, chainReg_shiftWords, h0, h8]

/-! ## Several frames -/

/-- Frames from rest end at rest; the chips and `DIN` aside, nothing else moves. -/
theorem performEvents_frames_rest (s : State) (hcs : s.cs = true) (hclk : s.clk = false)
    (fs : List (List WirePair)) :
    (performEvents s (fs.flatMap frame)).cs = true ∧ (performEvents s (fs.flatMap frame)).clk = false := by
  induction fs generalizing s with
  | nil => exact ⟨hcs, hclk⟩
  | cons f fs ih =>
    rw [List.flatMap_cons, performEvents_append]
    obtain ⟨h1, h2, -, -⟩ := performEvents_frame s hclk f
    exact ih _ h1 h2

/-- `DIN` after some bits, from any levels. -/
theorem performEvents_bits_din (s : State) (bs : List Bool) :
    (performEvents s (bs.flatMap sendBit)).din = lastBit s.din bs := by
  induction bs generalizing s with
  | nil => rfl
  | cons b bs ih =>
    have hl : lastBit s.din (b :: bs) = lastBit b bs := by simp [lastBit, List.getLast?_cons]
    rw [List.flatMap_cons, performEvents_append, ih, hl]
    simp [sendBit, performEvent]

/-- `DIN` after frames, from any levels: the last bit sent (R71). -/
theorem performEvents_frames_din (s : State) (fs : List (List WirePair)) :
    (performEvents s (fs.flatMap frame)).din = lastBit s.din (bitsOf fs.flatten) := by
  induction fs generalizing s with
  | nil => rfl
  | cons f fs ih =>
    have hf : (performEvents s (frame f)).din = lastBit s.din (bitsOf f) := by
      rw [frame_eq_bits, performEvents_cons, performEvents_cons, performEvents_append]
      have := performEvents_bits_din (s.driveCS false) (bitsOf f)
      simpa [performEvent] using this
    rw [List.flatMap_cons, performEvents_append, ih, hf, List.flatten_cons, ← lastBit_append, ← bitsOf_append]

/-- The last bit of some pairs is bit 0 of the last value byte. -/
theorem lastBit_bitsOf (d : Bool) (ps : List WirePair) (p : WirePair) :
    lastBit d (bitsOf (ps ++ [p])) = p.value.getLsbD 0 := by
  rw [bitsOf_append, lastBit_append]
  simp only [bitsOf, List.flatMap_cons, List.flatMap_nil, List.append_nil, pairBits_eq]
  rfl

theorem length_regGroup (reg : Byte) (vals : List Byte) : (regGroup reg vals).length = vals.length := by
  simp [regGroup]

theorem getD_regGroup (reg : Byte) (vals : List Byte) {i : Nat} (h : i < vals.length) :
    (regGroup reg vals).getD i ⟨0, 0⟩ = ⟨reg, vals.getD i 0⟩ := by
  simp [regGroup, List.getD_eq_getElem?_getD, h]

theorem getD_rowValues (fb : Memory) (i : Nat) {n j : Nat} (h : j < n) :
    (rowValues n fb i).getD j 0 = fb.read (fbAddr i j) := by
  simp [rowValues, List.getD_eq_getElem?_getD, h]

theorem rowRegister_nibble {i : Nat} (h : i < 8) : (rowRegister i).toNat % 16 = i + 1 := by
  simp [rowRegister]; omega

/-- One register of one chip after one frame per row group, for the rows of a list. -/
theorem chainReg_rowGroups (n : Nat) (fb : Memory) (rows : List Nat) (hrows : ∀ i ∈ rows, i < 8) (s : State)
    (hclk : s.clk = false) (hl : s.chain.length = n) {p : Nat} (hp : 1 ≤ p) (hv : p ≤ n) (a : Nat) :
    chainReg (performEvents s
      ((rows.map fun i => regGroup (rowRegister i) (rowValues n fb i)).flatMap frame)).chain p a =
      if 1 ≤ a ∧ a - 1 ∈ rows then fb.read (fbAddr (a - 1) (n - p)) else chainReg s.chain p a := by
  induction rows generalizing s with
  | nil => simp
  | cons i rows ih =>
    have hlen : (regGroup (rowRegister i) (rowValues n fb i)).length = n := by simp [length_regGroup, rowValues]
    have hi := hrows i List.mem_cons_self
    rw [List.map_cons, List.flatMap_cons, performEvents_append,
      ih (fun j hj => hrows j (List.mem_cons_of_mem _ hj)) _ (performEvents_frame s hclk _).2.1 (by simpa using hl),
      chainReg_frame s hclk _ hp (by omega) (by omega), hlen, getD_regGroup _ _ (by simp [rowValues]; omega),
      getD_rowValues _ _ (by omega)]
    simp only [rowRegister_nibble hi]
    by_cases ha : 1 ≤ a ∧ a - 1 ∈ rows
    · rw [if_pos ha, if_pos ⟨ha.1, List.mem_cons_of_mem _ ha.2⟩]
    · rw [if_neg ha]
      by_cases hb : a = i + 1
      · subst hb; simp
      · rw [if_neg (by tauto), if_neg]
        rintro ⟨h, h'⟩
        rcases List.mem_cons.mp h' with h' | h'
        · omega
        · exact ha ⟨h, h'⟩

/-- A flush under `GROUP` brings every row register of every chip to the framebuffer's byte. -/
theorem chainReg_writeDisplay_group (s : State) (fb : Memory) (hc : s.cfg.cadence = .group) (hclk : s.clk = false)
    (hl : s.chain.length = s.cfg.n) {p r : Nat} (hp : 1 ≤ p) (hv : p ≤ s.cfg.n) (hr : r < 8) :
    chainReg (performEvents s (writeDisplay s.cfg fb)).chain p (r + 1) = fb.read (fbAddr r (s.cfg.n - p)) := by
  rw [writeDisplay, frames, hc, framing, flushGroups, chainReg_rowGroups _ _ _ (by simp) s hclk hl hp hv,
    if_pos (by simp [hr]), Nat.add_sub_cancel]

theorem length_bcast (n : Nat) (reg v : Byte) : (bcast n reg v).length = n := by simp [bcast, regGroup]

/-- One broadcast in one frame: every chip takes the value in the register, and no other register changes. -/
theorem chainReg_bcast (n : Nat) (reg v : Byte) (s : State) (hclk : s.clk = false) (hl : s.chain.length = n)
    {p : Nat} (hp : 1 ≤ p) (hv : p ≤ n) (a : Nat) :
    chainReg (performEvents s (frame (bcast n reg v))).chain p a =
      if a = reg.toNat % 16 ∧ a ≠ 0 then v else chainReg s.chain p a := by
  have hlt : n - p < n := by omega
  rw [chainReg_frame s hclk _ hp (by omega) (by rw [length_bcast]; omega), length_bcast, bcast,
    getD_regGroup _ _ (by simpa using hlt)]
  simp [List.getD_eq_getElem?_getD, hlt]

/-- Where each half of `test` is one frame. -/
theorem testEvents_eq (cfg : Config) (hc : cfg.cadence ≠ .pair) : testEvents cfg =
    frame (bcast cfg.n regDisplayTest 0x01) ++ .wait .pause ::
      (frame (bcast cfg.n regDisplayTest 0x00) ++ [.wait .pause]) := by
  cases h : cfg.cadence <;> simp_all [testEvents, frames, framing]

/-- `test` as one frame for each half writes 0 to display-test in the end and no other register. -/
theorem chainReg_testEvents (s : State) (hc : s.cfg.cadence ≠ .pair) (hclk : s.clk = false)
    (hl : s.chain.length = s.cfg.n) {p : Nat} (hp : 1 ≤ p) (hv : p ≤ s.cfg.n) (a : Nat) :
    chainReg (performEvents s (testEvents s.cfg)).chain p a = if a = 15 then 0x00 else chainReg s.chain p a := by
  have hr : regDisplayTest.toNat % 16 = 15 := rfl
  rw [testEvents_eq _ hc, performEvents_append, performEvents_cons, performEvents_append]
  simp only [performEvents_cons, performEvents_nil, performEvent]
  rw [chainReg_bcast _ _ _ _ (performEvents_frame s hclk _).2.1 (by simpa using hl) hp hv,
    chainReg_bcast _ _ _ _ hclk hl hp hv, hr]
  by_cases ha : a = 15 <;> simp [ha]

/-! ## One frame per pair (`PAIR`) -/

/-- The events of some pairs, each in a frame of its own. -/
def pairFrames (ps : List WirePair) : List Event := (ps.map fun x => [x]).flatMap frame

theorem pairFrames_append (ps qs : List WirePair) : pairFrames (ps ++ qs) = pairFrames ps ++ pairFrames qs := by
  simp [pairFrames]

theorem writeDisplay_pair (cfg : Config) (fb : Memory) (hc : cfg.cadence = .pair) :
    writeDisplay cfg fb = pairFrames (flushGroups cfg.n fb).flatten := by
  rw [writeDisplay, frames, hc, framing, pairFrames]
  congr 1
  rw [List.map_flatten, List.flatMap_def]

/-- The shift registers are those of the pairs' words shifted in, whatever was latched meanwhile. -/
theorem performEvents_pairFrames (ps : List WirePair) (s : State) (hclk : s.clk = false) :
    (performEvents s (pairFrames ps)).clk = false ∧
    (performEvents s (pairFrames ps)).chain.map (·.sr) =
      (shiftWords s.chain (ps.map WirePair.word)).map (·.sr) := by
  induction ps generalizing s with
  | nil => exact ⟨hclk, rfl⟩
  | cons x ps ih =>
    rw [show x :: ps = [x] ++ ps from rfl, pairFrames_append, performEvents_append]
    obtain ⟨-, h2, -, h4⟩ := performEvents_frame s hclk [x]
    have he : pairFrames [x] = frame [x] := by simp [pairFrames]
    rw [he]
    obtain ⟨h5, h6⟩ := ih _ h2
    refine ⟨h5, h6.trans ?_⟩
    have hs : (performEvents s (frame [x])).chain.map (·.sr) = (shiftWord x.word s.chain).map (·.sr) := by
      rw [h4]; simp [Function.comp_def, shiftWords]
    have hr : shiftWords s.chain (([x] ++ ps).map WirePair.word) =
        shiftWords (shiftWord x.word s.chain) (ps.map WirePair.word) := rfl
    rw [hr, shiftWords_srs, shiftWords_srs, hs, length_performEvents_chain, length_shiftWord]

/-- One frame more: the chip at position `p` latches the pair sent `p - 1` frames earlier. -/
theorem chainReg_pairFrames_succ (qs : List WirePair) (s : State) (hclk : s.clk = false) {p m : Nat} (hp : 1 ≤ p)
    (hl : p ≤ s.chain.length) (hm : m < qs.length) (hw : p ≤ m + 1) (a : Nat) :
    chainReg (performEvents s (pairFrames (qs.take (m + 1)))).chain p a =
      if a = (qs.getD (m + 1 - p) ⟨0, 0⟩).reg.toNat % 16 ∧ a ≠ 0 then (qs.getD (m + 1 - p) ⟨0, 0⟩).value
      else chainReg (performEvents s (pairFrames (qs.take m))).chain p a := by
  have he : qs.take (m + 1) = qs.take m ++ [qs[m]] := by rw [List.take_add_one]; simp [hm]
  have hsr : chainSR (performEvents s (pairFrames (qs.take (m + 1)))).chain p =
      (qs.getD (m + 1 - p) ⟨0, 0⟩).word := by
    have hlen : (qs.take (m + 1)).length = m + 1 := by rw [List.length_take]; omega
    rw [chainSR_eq, (performEvents_pairFrames _ s hclk).2, ← chainSR_eq,
      chainSR_shiftWords _ _ hp hl (by rw [List.length_map]; omega), List.length_map, hlen]
    have h1 : m + 1 - p < m + 1 := by omega
    have h2 : m + 1 - p < qs.length := by omega
    simp only [List.getD_eq_getElem?_getD, List.getElem?_map, List.getElem?_take_of_lt h1,
      List.getElem?_eq_getElem h2, Option.map_some, Option.getD_some]
  have hone : performEvents s (pairFrames (qs.take (m + 1))) =
      performEvents (performEvents s (pairFrames (qs.take m))) (frame [qs[m]]) := by
    rw [he, pairFrames_append, performEvents_append]
    simp [pairFrames]
  have hch := (performEvents_frame _ (performEvents_pairFrames (qs.take m) s hclk).1 [qs[m]]).2.2.2
  rw [hone, hch, chainSR_latch] at hsr
  obtain ⟨h0, h8⟩ := word_fields (qs.getD (m + 1 - p) ⟨0, 0⟩)
  rw [hone, hch, chainReg_latch, hsr, chainReg_shiftWords, h0, h8]

/-- Frames whose pair, as it reaches position `p`, carries another register leave the register alone. -/
theorem chainReg_pairFrames_keep (qs : List WirePair) (s : State) (hclk : s.clk = false) {p m : Nat} (hp : 1 ≤ p)
    (hl : p ≤ s.chain.length) (hw : p ≤ m) (a k : Nat) (hk : m + k ≤ qs.length)
    (h : ∀ j, m < j → j ≤ m + k → a ≠ (qs.getD (j - p) ⟨0, 0⟩).reg.toNat % 16) :
    chainReg (performEvents s (pairFrames (qs.take (m + k)))).chain p a =
      chainReg (performEvents s (pairFrames (qs.take m))).chain p a := by
  induction k with
  | zero => rfl
  | succ k ih =>
    rw [show m + (k + 1) = (m + k) + 1 by omega,
      chainReg_pairFrames_succ qs s hclk hp hl (by omega) (by omega), if_neg,
      ih (by omega) fun j h1 h2 => h j h1 (by omega)]
    exact fun h' => h (m + k + 1) (by omega) (by omega) h'.1

/-- The pairs of a flush in row-major order (R69): the pair of row `r`, chip index `j` stands at `r * n + j`. -/
theorem getD_flushGroups (n : Nat) (fb : Memory) {r j : Nat} (hr : r < 8) (hj : j < n) :
    (flushGroups n fb).flatten.getD (r * n + j) ⟨0, 0⟩ = ⟨rowRegister r, fb.read (fbAddr r j)⟩ := by
  have hlen : ∀ m, (((List.range m).map fun i => regGroup (rowRegister i) (rowValues n fb i)).flatten).length =
      m * n := fun m => by
    induction m with
    | zero => simp
    | succ m ih =>
      rw [List.range_succ, List.map_append, List.flatten_append, List.length_append, ih]
      simp [regGroup, rowValues]; ring
  have gen : ∀ m, r < m →
      (((List.range m).map fun i => regGroup (rowRegister i) (rowValues n fb i)).flatten).getD (r * n + j) ⟨0, 0⟩ =
        ⟨rowRegister r, fb.read (fbAddr r j)⟩ := fun m hm => by
    induction m with
    | zero => omega
    | succ m ih =>
      rw [List.range_succ, List.map_append, List.flatten_append, List.getD_eq_getElem?_getD]
      by_cases hrm : r = m
      · subst hrm
        rw [List.getElem?_append_right (by rw [hlen]; omega), hlen, ← List.getD_eq_getElem?_getD]
        simp only [List.map_cons, List.map_nil, List.flatten_cons, List.flatten_nil, List.append_nil,
          Nat.add_sub_cancel_left]
        rw [getD_regGroup _ _ (by simp [rowValues, hj]), getD_rowValues _ _ hj]
      · have hlt : r * n + j < m * n := by
          have : (r + 1) * n ≤ m * n := Nat.mul_le_mul_right _ (by omega)
          rw [Nat.add_mul] at this; omega
        rw [List.getElem?_append_left (by rw [hlen]; exact hlt), ← List.getD_eq_getElem?_getD]
        exact ih (by omega)
  exact gen 8 hr

/-- Where each pair is a frame of its own, `test` is two lists of them. -/
theorem testEvents_pair (cfg : Config) (hc : cfg.cadence = .pair) : testEvents cfg =
    pairFrames (bcast cfg.n regDisplayTest 0x01) ++ .wait .pause ::
      (pairFrames (bcast cfg.n regDisplayTest 0x00) ++ [.wait .pause]) := by
  simp [testEvents, frames, hc, framing, pairFrames]

/-- A broadcast of one frame per pair reaches every chip in the end. -/
theorem chainReg_pairFrames_bcast (n : Nat) (reg v : Byte) (hreg : reg.toNat % 16 ≠ 0) (s : State)
    (hclk : s.clk = false) (hl : s.chain.length = n) {p : Nat} (hp : 1 ≤ p) (hv : p ≤ n) :
    chainReg (performEvents s (pairFrames (bcast n reg v))).chain p (reg.toNat % 16) = v := by
  have hlt : n - p < n := by omega
  have hlast : (bcast n reg v).take (n - 1 + 1) = bcast n reg v :=
    List.take_of_length_le (by rw [length_bcast]; omega)
  have hget : (bcast n reg v).getD (n - 1 + 1 - p) ⟨0, 0⟩ = ⟨reg, v⟩ := by
    rw [show n - 1 + 1 - p = n - p by omega, bcast, getD_regGroup _ _ (by simpa using hlt)]
    simp [List.getD_eq_getElem?_getD, hlt]
  have := chainReg_pairFrames_succ (bcast n reg v) s hclk (m := n - 1) hp (by omega)
    (by rw [length_bcast]; omega) (by omega) (reg.toNat % 16)
  rw [hlast, hget, if_pos ⟨rfl, hreg⟩] at this
  exact this

/-! ## The chips after a reset -/

/-- Everything a reset can do to a chip it finds and keeps. -/
theorem resetChips_kept (cfg : Config) (s : State) {p : Nat} (hp : 1 ≤ p) (hn : p ≤ cfg.n)
    (hl : p ≤ s.chain.length) :
    chainSR (resetChips cfg s) p = chainSR s.chain p ∧ ∀ a, chainReg (resetChips cfg s) p a =
      if s.cs then chainReg s.chain p a
      else if a ∈ leftByReset cfg then Config.freeReg s.free p a
      else chainReg (s.chain.map Chip.latch) p a := by
  have hi : p - 1 < s.chain.length := by omega
  have hc := resetChips_old cfg s (i := p - 1) (by omega) hi
  rw [Nat.sub_add_cancel hp] at hc
  simp only [chainSR, chainReg, hc, List.getElem?_map, List.getElem?_eq_getElem hi, Option.getD_some,
    Option.map_some]
  by_cases hcs : s.cs = true <;> simp [hcs, Chip.interrupted_sr, Chip.interrupted_read]

end Sys2Proof.Machine
end

