-- ==== Sys2Proof/Laws/Step.lean ====
section
/-! SUPPORT. What a step, an acceptance and a command can do, each said once; later proofs cite these and never unfold
`step` or `exec`. -/

namespace Sys2Proof.Machine

/-! ## Commands -/

/-- The commands that draw: all but `test` and the reserved row. -/
def Draws (i : Instr) : Prop := i ≠ .test ∧ ∀ w, i ≠ .reserved w

/-- A drawing command answers a next state: a framebuffer `fb` with the flush of it started, where `fb` is canonical if
the old one is and lists no new cell outside the 8·N cells. -/
theorem exec_draws {i : Instr} (hi : Draws i) (s : State) (hn : 1 ≤ s.cfg.n) :
    ∃ fb : Memory, exec i s = .next ({ s with fb := fb } : State).startFlush ∧ (s.fb.wf → fb.wf) ∧
      ∀ c ∈ fb, c ∈ s.fb ∨ ∃ r j, r < 8 ∧ j < s.cfg.n ∧ c.1 = fbAddr r j := by
  have rows : ∀ (f : Nat → Byte → Byte) (nth : Byte),
      (s.fb.wf → (writeRows f (chipIndex s.cfg.n nth) 8 s.fb).wf) ∧
      ∀ c ∈ writeRows f (chipIndex s.cfg.n nth) 8 s.fb,
        c ∈ s.fb ∨ ∃ r j, r < 8 ∧ j < s.cfg.n ∧ c.1 = fbAddr r j := fun f nth =>
    ⟨fun h => writeRows_wf f _ h 8, fun c hc => (mem_writeRows hc).imp_right
      fun ⟨r, hr, he⟩ => ⟨r, _, hr, chipIndex_lt hn nth, he⟩⟩
  have cell : ∀ (row nth v : Byte),
      (s.fb.wf → (s.fb.write (fbAddr (clamp07 row) (chipIndex s.cfg.n nth)) v).wf) ∧
      ∀ c ∈ s.fb.write (fbAddr (clamp07 row) (chipIndex s.cfg.n nth)) v,
        c ∈ s.fb ∨ ∃ r j, r < 8 ∧ j < s.cfg.n ∧ c.1 = fbAddr r j := fun row nth v =>
    ⟨fun h => Memory.write_wf h _ v, fun c hc => (Memory.mem_write hc).symm.imp_right
      fun he => ⟨_, _, Nat.lt_succ_of_le (clamp07_le row), chipIndex_lt hn nth, by rw [he]⟩⟩
  cases i with
  | clear nth =>
    by_cases h : nth = 0
    · exact ⟨_, by simp only [exec, execClear, h, if_true, State.fbClearAll],
        fun hw => clearChips_wf hw _, fun c hc => mem_clearChips hc⟩
    · exact ⟨_, by simp only [exec, execClear, h, if_false]; rfl, rows (fun _ _ => 0x00) nth⟩
  | turnOn col row nth => exact ⟨_, rfl, cell row nth _⟩
  | onColumn col nth => exact ⟨_, rfl, rows _ nth⟩
  | onRow row nth => exact ⟨_, rfl, cell row nth _⟩
  | customColumn data col nth shift => exact ⟨_, rfl, rows _ nth⟩
  | customRow data row nth shift => exact ⟨_, rfl, cell row nth _⟩
  | symbol b0 b1 b2 b3 b4 b5 b6 b7 nth => exact ⟨_, rfl, rows _ nth⟩
  | test => exact absurd rfl hi.1
  | reserved w => exact absurd rfl (hi.2 w)

/-- Every instruction draws, is `test`, or is the reserved row. -/
theorem draws_or (i : Instr) : Draws i ∨ i = .test ∨ ∃ w, i = .reserved w := by
  cases i <;> simp [Draws]

theorem exec_test (s : State) : exec .test s = .next (s.startEvents (testEvents s.cfg)) := rfl

theorem exec_reserved (w : CmdWord) (s : State) :
    exec (.reserved w) s = .next (raiseIll .reservedOpcode w s) := rfl

/-! ## Acceptance -/

/-- `w` spells no command, for cause `c`. -/
def Rejects (w : CmdWord) (c : IllCause) : Prop :=
  decode w = .instr (.reserved w) ∧ c = .reservedOpcode ∨ decode w = .rejected .reservedField ∧ c = .reservedField

/-- The decoder answers `reserved` only for the word itself, and rejects only for its reserved fields. -/
theorem decode_cases (w : CmdWord) :
    decode w = .instr (.reserved w) ∨ decode w = .rejected .reservedField ∨
      ∃ i, decode w = .instr i ∧ (Draws i ∨ i = .test) := by
  unfold decode
  by_cases h3 : w.getLsbD 3 = true
  · exact .inl (by rw [if_pos h3])
  rw [if_neg h3]
  by_cases hr : fieldRSV0 w ≠ 0 ∨ fieldRSV1 w ≠ 0
  · exact .inr (.inl (by rw [if_pos hr]))
  rw [if_neg hr]
  unfold decodeOp
  split <;> simp [Draws]

/-- Everything acceptance can do: a drawing command, `test`, or a rejection. -/
theorem accept_cases (w : CmdWord) (s : State) (hn : 1 ≤ s.cfg.n) :
    (∃ i fb, decode w = .instr i ∧ Draws i ∧
      accept w s = .next ({ s with cmd := w, fb := fb } : State).startFlush ∧ (s.fb.wf → fb.wf) ∧
      ∀ c ∈ fb, c ∈ s.fb ∨ ∃ r j, r < 8 ∧ j < s.cfg.n ∧ c.1 = fbAddr r j) ∨
    (decode w = .instr .test ∧
      accept w s = .next (({ s with cmd := w } : State).startEvents (testEvents s.cfg))) ∨
    ∃ c, Rejects w c ∧ accept w s = .next (raiseIll c w { s with cmd := w }) := by
  rcases decode_cases w with h | h | ⟨i, h, hi | rfl⟩
  · exact .inr (.inr ⟨.reservedOpcode, .inl ⟨h, rfl⟩, by simp only [accept, h, exec_reserved]⟩)
  · exact .inr (.inr ⟨.reservedField, .inr ⟨h, rfl⟩, by simp only [accept, h]⟩)
  · obtain ⟨fb, he, hw, hm⟩ := exec_draws hi { s with cmd := w } hn
    exact .inl ⟨i, fb, h, hi, by simpa only [accept, h] using he, hw, hm⟩
  · exact .inr (.inl ⟨h, by simp only [accept, h, exec_test]⟩)

/-- The same, read from an answer: everything an acceptance that answers `t` can have done. -/
theorem accept_next_cases {w : CmdWord} {s t : State} (hn : 1 ≤ s.cfg.n) (h : accept w s = .next t) :
    (∃ i fb, decode w = .instr i ∧ Draws i ∧ t = ({ s with cmd := w, fb := fb } : State).startFlush ∧
      (s.fb.wf → fb.wf) ∧ ∀ c ∈ fb, c ∈ s.fb ∨ ∃ r j, r < 8 ∧ j < s.cfg.n ∧ c.1 = fbAddr r j) ∨
    (decode w = .instr .test ∧ t = ({ s with cmd := w } : State).startEvents (testEvents s.cfg)) ∨
    ∃ c, Rejects w c ∧ t = raiseIll c w { s with cmd := w } := by
  rcases accept_cases w s hn with ⟨i, fb, hd, hi, he, hw, hm⟩ | ⟨hd, he⟩ | ⟨c, hr, he⟩ <;>
    rw [he] at h <;> have h := (Host.Outcome.next.inj h).symm
  · exact .inl ⟨i, fb, hd, hi, h, hw, hm⟩
  · exact .inr (.inl ⟨hd, h⟩)
  · exact .inr (.inr ⟨c, hr, h⟩)

/-! ## Steps -/

theorem cfg_ok_iff (c : Config) : c.ok = true ↔ 1 ≤ c.n ∧ c.n ≤ 255 := by simp [Config.ok]

/-- Without reset the parameters of a step are those held. -/
theorem cfgNow_of_rst {s : State} (h : s.rst = false) : s.cfgNow = s.cfg := by
  unfold State.cfgNow
  split
  · next he => simp [State.rst, he] at h
  · rfl

/-- What reset means of the host's moves: the first one samples the parameters and is over after the step. -/
theorem rst_host {s : State} (h : s.rst = true) :
    ∃ cfg l, s.host = .reset cfg :: l ∧ s.cfgNow = cfg ∧ s.hostWaits.host = l := by
  unfold State.rst at h
  split at h
  · next cfg l he => exact ⟨cfg, l, he, by simp [State.cfgNow, he], by simp [he, hostAfterStep]⟩
  · cases h

/-- A step that reset overrides. -/
theorem step_reset {s : State} (hok : s.cfgNow.ok = true) (h : s.rst = true) :
    step s = .next (resetBlock s.cfgNow s.hostWaits) := by simp [step, hok, h]

theorem step_idle {s : State} (hok : s.cfg.ok = true) (h : s.rst = false) (hp : s.phase = .idle) :
    step s = idleStep s := by simp [step, cfgNow_of_rst h, hok, h, hp]

theorem step_running {s : State} (hok : s.cfg.ok = true) (h : s.rst = false) (hp : s.phase ≠ .idle) :
    step s = performNext s.hostWaits := by
  have hc := cfgNow_of_rst h
  cases hp' : s.phase <;> simp_all [step]

/-- Everything a step can do. -/
theorem step_cases {s t : State} (h : step s = .next t) :
    s.cfgNow.ok = true ∧ (s.rst = false → s.cfg.ok = true) ∧
    ((s.rst = true ∧ t = resetBlock s.cfgNow s.hostWaits) ∨
     (s.rst = false ∧ s.phase = .idle ∧ s.offered = none ∧ t = s.hostWaits) ∨
     (s.rst = false ∧ s.phase = .idle ∧ ∃ w, s.offered = some w ∧ accept w s.hostTaken = .next t) ∨
     (s.rst = false ∧ s.phase ≠ .idle ∧ ∃ e, s.ev[s.pc]? = some e ∧
       t = (performEvent s.hostWaits e).advance)) := by
  have hok : s.cfgNow.ok = true := by
    by_contra hn
    rw [Bool.not_eq_true] at hn
    simp [step, hn] at h
  refine ⟨hok, fun hr => cfgNow_of_rst hr ▸ hok, ?_⟩
  cases hr : s.rst with
  | true =>
    rw [step_reset hok hr] at h
    exact .inl ⟨rfl, (Host.Outcome.next.inj h).symm⟩
  | false =>
    have hok : s.cfg.ok = true := cfgNow_of_rst hr ▸ hok
    by_cases hp : s.phase = .idle
    · rw [step_idle hok hr hp, idleStep] at h
      cases ho : s.offered with
      | none =>
        rw [ho] at h
        exact .inr (.inl ⟨rfl, hp, rfl, (Host.Outcome.next.inj h).symm⟩)
      | some w =>
        rw [ho] at h
        exact .inr (.inr (.inl ⟨rfl, hp, w, rfl, h⟩))
    · rw [step_running hok hr hp, performNext] at h
      cases he : s.ev[s.pc]? with
      | none => simp [he] at h
      | some e =>
        simp only [State.hostWaits_ev, State.hostWaits_pc, he] at h
        exact .inr (.inr (.inr ⟨rfl, hp, e, rfl, (Host.Outcome.next.inj h).symm⟩))

/-- The word placed by `withFetchWord` is what the next step accepts. -/
theorem step_withFetchWord (s : State) (nbits w : Nat) (hok : s.cfg.ok = true) :
    step (s.withFetchWord nbits w) =
      accept (BitVec.ofNat 128 (w % 2 ^ nbits)) { s with phase := .idle, pc := s.ev.length } := by
  rw [step_idle (by exact hok) rfl rfl]; rfl

end Sys2Proof.Machine
end

