-- ==== Sys2Proof/Laws/Commands.lean ====
section
/-! SUPPORT. What each command answers, as one equation over the shared operations, and what a cell or an address of the
framebuffer reads afterwards. -/

namespace Sys2Proof.Machine

theorem exec_clear_all (s : State) : exec (.clear 0) s = .next s.fbClearAll.startFlush := rfl

theorem exec_clear_one {nth : Byte} (h : nth ≠ 0) (s : State) : exec (.clear nth) s =
    .next (s.fbMapRows (fun _ _ => 0x00) (chipIndex s.cfg.n nth)).startFlush := by
  rw [exec, execClear, if_neg h]

theorem exec_turnOn (col row nth : Byte) (s : State) : exec (.turnOn col row nth) s =
    .next (s.fbWrite (clamp07 row) (chipIndex s.cfg.n nth) (colBit (clamp07 col))).startFlush := rfl

theorem exec_onColumn (col nth : Byte) (s : State) : exec (.onColumn col nth) s =
    .next (s.fbMapRows (fun _ b => b ||| colBit (clamp07 col)) (chipIndex s.cfg.n nth)).startFlush := rfl

theorem exec_onRow (row nth : Byte) (s : State) : exec (.onRow row nth) s =
    .next (s.fbWrite (clamp07 row) (chipIndex s.cfg.n nth) 0xFF).startFlush := rfl

theorem exec_customColumn (data col nth shift : Byte) (s : State) : exec (.customColumn data col nth shift) s =
    .next (s.fbMapRows
      (fun i b => if (adjustShift data shift).getLsbD i then b ||| colBit (clamp07 col) else b)
      (chipIndex s.cfg.n nth)).startFlush := rfl

theorem exec_customRow (data row nth shift : Byte) (s : State) : exec (.customRow data row nth shift) s =
    .next (s.fbWrite (clamp07 row) (chipIndex s.cfg.n nth) (adjustShift data shift)).startFlush := rfl

theorem exec_symbol (b0 b1 b2 b3 b4 b5 b6 b7 nth : Byte) (s : State) :
    exec (.symbol b0 b1 b2 b3 b4 b5 b6 b7 nth) s =
    .next (s.fbMapRows (fun i _ => [b0, b1, b2, b3, b4, b5, b6, b7].getD i 0x00)
      (chipIndex s.cfg.n nth)).startFlush := rfl

/-! ## Reading the framebuffer afterwards -/

@[simp] theorem State.fbRead_startFlush (s : State) (r j : Nat) : s.startFlush.fbRead r j = s.fbRead r j := rfl

@[simp] theorem State.fbRead_fbWrite_same (s : State) (r k : Nat) (v : Byte) :
    (s.fbWrite r k v).fbRead r k = v := by simp [State.fbRead]

theorem State.read_fbWrite_other (s : State) {r k a : Nat} (v : Byte) (h : a ≠ fbAddr r k) :
    (s.fbWrite r k v).fb.read a = s.fb.read a := by simp [h.symm]

theorem State.fbRead_fbMapRows_row (s : State) (f : Nat → Byte → Byte) (k : Nat) {r : Nat} (hr : r < 8) :
    (s.fbMapRows f k).fbRead r k = f r (s.fbRead r k) := writeRows_read_row f k s.fb 8 hr

theorem State.read_fbMapRows_other (s : State) (f : Nat → Byte → Byte) {k a : Nat}
    (h : ∀ r, r < 8 → a ≠ fbAddr r k) : (s.fbMapRows f k).fb.read a = s.fb.read a :=
  writeRows_read_other f k s.fb a 8 h

theorem State.fbRead_fbClearAll (s : State) {r j : Nat} (hr : r < 8) (hj : j < s.cfg.n) :
    s.fbClearAll.fbRead r j = 0x00 := clearChips_read_cell s.fb hr _ hj

theorem State.read_fbClearAll_other (s : State) {a : Nat}
    (h : ∀ r j, r < 8 → j < s.cfg.n → a ≠ fbAddr r j) : s.fbClearAll.fb.read a = s.fb.read a :=
  clearChips_read_other s.fb a _ h

/-- Starting the flush after a change of the framebuffer alone: what FlushesFrom says. -/
theorem flushesFrom_startFlush (s : State) (fb : Memory) : FlushesFrom s ({ s with fb := fb } : State).startFlush where
  phase := rfl
  pc := rfl
  ev := rfl
  rest := ⟨rfl, rfl, rfl, rfl, rfl, rfl, rfl, rfl, rfl, rfl, rfl⟩

theorem flushesFrom_fbWrite (s : State) (r k : Nat) (v : Byte) : FlushesFrom s (s.fbWrite r k v).startFlush :=
  flushesFrom_startFlush s _

theorem flushesFrom_fbMapRows (s : State) (f : Nat → Byte → Byte) (k : Nat) :
    FlushesFrom s (s.fbMapRows f k).startFlush := flushesFrom_startFlush s _

theorem flushesFrom_fbClearAll (s : State) : FlushesFrom s s.fbClearAll.startFlush :=
  flushesFrom_startFlush s _

end Sys2Proof.Machine
end

