-- ==== Sys2Proof/Laws/Decode.lean ====
section
/-! SUPPORT. The fields of an assembled word, and what decoding makes of it. -/

namespace Sys2Proof

theorem fields_assembleFields (op : BitVec 4) (nth col row data shift : Byte) (sym : BitVec 64) :
    fieldOP (assembleFields op nth col row data shift sym) = op ∧
    fieldRSV0 (assembleFields op nth col row data shift sym) = 0 ∧
    fieldNTH (assembleFields op nth col row data shift sym) = nth ∧
    fieldCOL (assembleFields op nth col row data shift sym) = col ∧
    fieldROW (assembleFields op nth col row data shift sym) = row ∧
    fieldDATA (assembleFields op nth col row data shift sym) = data ∧
    fieldSHIFT (assembleFields op nth col row data shift sym) = shift ∧
    fieldRSV1 (assembleFields op nth col row data shift sym) = 0 := by
  refine ⟨?_, ?_, ?_, ?_, ?_, ?_, ?_, ?_⟩ <;>
  · apply BitVec.eq_of_getLsbD_eq
    intro k hk
    simp only [fieldOP, fieldRSV0, fieldNTH, fieldCOL, fieldROW, fieldDATA, fieldSHIFT, fieldRSV1,
      assembleFields, BitVec.getLsbD_extractLsb', BitVec.getLsbD_append, hk, decide_true, Bool.true_and]
    simp (disch := omega) only [if_neg, if_pos]
    congr 1
    try omega

theorem fieldSYM_assembleFields (op : BitVec 4) (nth col row data shift : Byte) (sym : BitVec 64) (i : Nat) :
    fieldSYM (assembleFields op nth col row data shift sym) i = sym.extractLsb' (8 * i) 8 := by
  apply BitVec.eq_of_getLsbD_eq
  intro k hk
  simp only [fieldSYM, assembleFields, BitVec.getLsbD_extractLsb', BitVec.getLsbD_append, hk, decide_true,
    Bool.true_and]
  simp (disch := omega) only [if_neg]
  congr 1
  omega

theorem bytes_packSym (b0 b1 b2 b3 b4 b5 b6 b7 : Byte) :
    (packSym b0 b1 b2 b3 b4 b5 b6 b7).extractLsb' (8 * 0) 8 = b0 ∧
    (packSym b0 b1 b2 b3 b4 b5 b6 b7).extractLsb' (8 * 1) 8 = b1 ∧
    (packSym b0 b1 b2 b3 b4 b5 b6 b7).extractLsb' (8 * 2) 8 = b2 ∧
    (packSym b0 b1 b2 b3 b4 b5 b6 b7).extractLsb' (8 * 3) 8 = b3 ∧
    (packSym b0 b1 b2 b3 b4 b5 b6 b7).extractLsb' (8 * 4) 8 = b4 ∧
    (packSym b0 b1 b2 b3 b4 b5 b6 b7).extractLsb' (8 * 5) 8 = b5 ∧
    (packSym b0 b1 b2 b3 b4 b5 b6 b7).extractLsb' (8 * 6) 8 = b6 ∧
    (packSym b0 b1 b2 b3 b4 b5 b6 b7).extractLsb' (8 * 7) 8 = b7 := by
  refine ⟨?_, ?_, ?_, ?_, ?_, ?_, ?_, ?_⟩ <;>
  · apply BitVec.eq_of_getLsbD_eq
    intro k hk
    simp only [packSym, BitVec.getLsbD_extractLsb', BitVec.getLsbD_append, hk, decide_true, Bool.true_and]
    simp (disch := omega) only [if_neg, if_pos]
    congr 1
    try omega

/-- Bit 3 of a word is bit 3 of its `OP` (the test of R54). -/
theorem getLsbD_three (w : CmdWord) : w.getLsbD 3 = (fieldOP w).getLsbD 3 := by
  simp [fieldOP]

/-- An assembled word with an opcode in 0x0..0x7 goes to the opcode map. -/
theorem decode_assembleFields {op : BitVec 4} (hop : op.getLsbD 3 = false) (nth col row data shift : Byte)
    (sym : BitVec 64) :
    decode (assembleFields op nth col row data shift sym) =
      .instr (decodeOp (assembleFields op nth col row data shift sym)) := by
  obtain ⟨h0, h1, -, -, -, -, -, h2⟩ := fields_assembleFields op nth col row data shift sym
  rw [decode, getLsbD_three, h0, hop, if_neg (by simp), if_neg (by simp [h1, h2])]

/-- A word whose reserved fields are 0 and whose opcode is in 0x0..0x7 goes to the opcode map. -/
theorem decode_of_legal {w : CmdWord} (h3 : w.getLsbD 3 = false) (h0 : fieldRSV0 w = 0) (h1 : fieldRSV1 w = 0) :
    decode w = .instr (decodeOp w) := by
  rw [decode, h3, if_neg (by simp), if_neg (by simp [h0, h1])]

end Sys2Proof
end

