-- ==== Sys2Proof/Laws/PerInstr.lean ====
section
/-! SUPPORT. Statements for all instructions, made per constructor. -/

namespace Sys2Proof.Laws.OpcodeField

/-- R50, R51, R52: the opcode field of a well-formed command's word is its row's, and the word of a command has its
reserved fields 0. -/
def Statement (i : Instr) : Prop :=
  i.wellFormed = true →
    match i with
    | .clear _ => fieldOP (encode i) = 0x0 ∧ fieldRSV0 (encode i) = 0 ∧ fieldRSV1 (encode i) = 0
    | .turnOn _ _ _ => fieldOP (encode i) = 0x1 ∧ fieldRSV0 (encode i) = 0 ∧ fieldRSV1 (encode i) = 0
    | .onColumn _ _ => fieldOP (encode i) = 0x2 ∧ fieldRSV0 (encode i) = 0 ∧ fieldRSV1 (encode i) = 0
    | .onRow _ _ => fieldOP (encode i) = 0x3 ∧ fieldRSV0 (encode i) = 0 ∧ fieldRSV1 (encode i) = 0
    | .customColumn _ _ _ _ => fieldOP (encode i) = 0x4 ∧ fieldRSV0 (encode i) = 0 ∧ fieldRSV1 (encode i) = 0
    | .customRow _ _ _ _ => fieldOP (encode i) = 0x5 ∧ fieldRSV0 (encode i) = 0 ∧ fieldRSV1 (encode i) = 0
    | .symbol _ _ _ _ _ _ _ _ _ => fieldOP (encode i) = 0x6 ∧ fieldRSV0 (encode i) = 0 ∧ fieldRSV1 (encode i) = 0
    | .test => fieldOP (encode i) = 0x7 ∧ fieldRSV0 (encode i) = 0 ∧ fieldRSV1 (encode i) = 0
    | .reserved _ => 8 ≤ (fieldOP (encode i)).toNat

theorem assembled (op : BitVec 4) (nth col row data shift : Byte) (sym : BitVec 64) :
    fieldOP (assembleFields op nth col row data shift sym) = op ∧
    fieldRSV0 (assembleFields op nth col row data shift sym) = 0 ∧
    fieldRSV1 (assembleFields op nth col row data shift sym) = 0 := by
  have h := fields_assembleFields op nth col row data shift sym
  exact ⟨h.1, h.2.1, h.2.2.2.2.2.2.2⟩

theorem clear (nth : Byte) : Statement (.clear nth) := fun _ => assembled ..
theorem turnOn (col row nth : Byte) : Statement (.turnOn col row nth) := fun _ => assembled ..
theorem onColumn (col nth : Byte) : Statement (.onColumn col nth) := fun _ => assembled ..
theorem onRow (row nth : Byte) : Statement (.onRow row nth) := fun _ => assembled ..
theorem customColumn (data col nth shift : Byte) : Statement (.customColumn data col nth shift) :=
  fun _ => assembled ..
theorem customRow (data row nth shift : Byte) : Statement (.customRow data row nth shift) :=
  fun _ => assembled ..
theorem symbol (b0 b1 b2 b3 b4 b5 b6 b7 nth : Byte) : Statement (.symbol b0 b1 b2 b3 b4 b5 b6 b7 nth) :=
  fun _ => assembled ..
theorem test : Statement .test := fun _ => assembled ..
theorem high_opcode : ∀ x : BitVec 4, x.getLsbD 3 = true → 8 ≤ x.toNat := by decide
theorem reserved (w : CmdWord) : Statement (.reserved w) := fun h =>
  high_opcode (fieldOP w) ((getLsbD_three w).symm.trans h)

end Sys2Proof.Laws.OpcodeField
end

