-- ==== Sys2Proof/Laws/Run.lean ====
section
/-! SUPPORT. Runs of the machine, one step at a time. -/

namespace Sys2Proof.Machine

@[simp] theorem runSteps_zero (s : State) : runSteps 0 s = .next s := rfl

/-- A run whose first step answers `t` goes on from `t`. -/
theorem runSteps_succ {s t : State} (h : step s = .next t) (k : Nat) : runSteps (k + 1) s = runSteps k t := by
  rw [runSteps, h]

/-- A run of `j + k` steps is a run of `j` and then one of `k`. -/
theorem runSteps_add {s t : State} {j : Nat} (h : runSteps j s = .next t) (k : Nat) :
    runSteps (j + k) s = runSteps k t := by
  induction j generalizing s with
  | zero => cases h; rw [Nat.zero_add]
  | succ j ih =>
    rw [show j + 1 + k = (j + k) + 1 by omega, runSteps]
    rw [runSteps] at h
    cases hs : step s with
    | next u => rw [hs] at h; exact ih h
    | fault r => rw [hs] at h; cases h
    | refused r => rw [hs] at h; cases h

/-- One step of the host's run of any machine. -/
theorem hostRun_succ (M : Host.Core) (k : Nat) (s : M.State) :
    (∀ t, M.step s = .next t → M.run (k + 1) s = M.run k t) ∧
    (∀ f, M.step s = .fault f → M.run (k + 1) s = .fault f) ∧
    (∀ r, M.step s = .refused r → M.run (k + 1) s = .refused r) := by
  refine ⟨fun t h => ?_, fun f h => ?_, fun r h => ?_⟩ <;> rw [Host.Core.run, h]

/-- The host's run of this machine is this run. -/
theorem core_run_eq : ∀ (k : Nat) (s : State), Sys2Proof.core.run k s = runSteps k s
  | 0, _ => rfl
  | k + 1, s => by
    obtain ⟨hn, hf, hr⟩ := hostRun_succ Sys2Proof.core k s
    cases hs : step s with
    | next u => exact (hn u hs).trans ((core_run_eq k u).trans (runSteps_succ hs k).symm)
    | fault f => exact (hf f hs).trans (by rw [runSteps, hs]; rfl)
    | refused r => exact (hr r hs).trans (by rw [runSteps, hs]; rfl)

/-! ## A step that performs an event -/

/-- A host that never resets goes on never resetting, and `rst` is 0 now. -/
theorem rst_false_of_host {s : State} (h : ∀ c, HostMove.reset c ∉ s.host) : s.rst = false := by
  cases hh : s.host with
  | nil => simp [State.rst, hh]
  | cons m l =>
    cases m with
    | reset c => exact absurd (hh ▸ List.mem_cons_self) (h c)
    | quiet => simp [State.rst, hh]
    | offer w => simp [State.rst, hh]
    | hold w => simp [State.rst, hh]

theorem hostAfterStep_noReset {h : List HostMove} (hh : ∀ c, HostMove.reset c ∉ h) :
    ∀ c, HostMove.reset c ∉ hostAfterStep h := by
  cases h with
  | nil => simp [hostAfterStep]
  | cons m l => cases m <;> simp_all [hostAfterStep]

/-- Everything a step of the event list leaves of the list's final effect: the pins and chips the remaining events lead
to are those they led to before the step. -/
theorem settled_advance (s : State) (hlt : s.pc < s.ev.length) :
    (performEvent s.hostWaits s.ev[s.pc]).advance.settled.cs = s.settled.cs ∧
    (performEvent s.hostWaits s.ev[s.pc]).advance.settled.clk = s.settled.clk ∧
    (performEvent s.hostWaits s.ev[s.pc]).advance.settled.din = s.settled.din ∧
    (performEvent s.hostWaits s.ev[s.pc]).advance.settled.chain = s.settled.chain := by
  have hd : s.ev.drop s.pc = s.ev[s.pc] :: s.ev.drop (s.pc + 1) := List.drop_eq_getElem_cons hlt
  have he : ∀ e, performEvent s.hostWaits e = (performEvent s e).hostWaits := fun e => by cases e <;> rfl
  unfold State.settled
  rw [hd, performEvents_cons]
  simp only [State.advance_ev, State.advance_pc, State.performEvent_ev, State.performEvent_pc,
    State.hostWaits_ev, State.hostWaits_pc]
  apply performEvents_pins <;> rw [he] <;> rfl

/-- While `IDLE` under the sequencer invariant no event is left and the pins are at rest. -/
theorem SequencerInv.idle {s : State} (h : SequencerInv s) (hp : s.phase = .idle) :
    s.settled = s ∧ s.cs = true ∧ s.clk = false := by
  have hd := h.discipline
  rw [h.finished hp, List.drop_length] at hd
  refine ⟨?_, by simpa [framed] using hd⟩
  simp [State.settled, h.finished hp]

end Sys2Proof.Machine
end

