-- ==== Sys2Proof/Tests/Slice0.lean ====
section
/-! SUPPORT. Tests. Words, operands and results are those of spec/95_test_vectors.md (section named at each group), not
the model's own answers. After them, for every statement of Certificates/Slice0/Obligations.lean that has hypotheses, a
concrete input that meets them, clause by clause. -/

namespace Sys2Proof.Tests

open Sys2Proof Sys2Proof.Machine

/-! ## Small states -/

/-- The state of an answer that goes on. -/
def next? (o : Host.Outcome State Fault Refusal) : Option State :=
  match o with
  | .next s => some s
  | .fault _ => none
  | .refused _ => none

/-- This hardware with `n` chips. -/
def cfgN (n : Nat) : Config :=
  { Config.thisHardware with n := n }

/-- `n` chips, idle, nothing pending. -/
def idleAt (n : Nat) (fb : Memory) (host : List HostMove) : State :=
  { fb := fb, cs := true, clk := false, din := false, phase := .idle, cmd := 0, ev := [], pc := 0,
    ill := false, illCause := 0b00, illWord := 0, cfg := cfgN n, chain := List.replicate n Chip.powerUp, host := host,
    free := 0 }

/-- One chip, busy with the given events, of which the first is next; pins at `cs`, `clk`, `din`. -/
def busyAt (cs clk din : Bool) (ev : List Event) (host : List HostMove) : State :=
  { idleAt 1 [] host with cs := cs, clk := clk, din := din, phase := .busy, ev := ev }

/-- All eight rows of chip `j` hold `v`. -/
def chipFilled (j : Nat) (v : Byte) (m : Memory) : Memory :=
  (List.range 8).foldl (fun m r => m.write (fbAddr r j) v) m

/-- The framebuffer after the step that takes the word, from `n` idle chips with framebuffer `fb`. -/
def fbAfterWord (n : Nat) (fb : Memory) (w : Nat) : Option Memory :=
  (next? (step ((idleAt n fb []).withFetchWord 128 w))).map fun t => t.fb

/-! ## WellFormed: the one check -/

theorem test_wf_reserved_needs_bit_3 : (Instr.reserved 0x7).wellFormed = false := by decide
theorem test_wf_reserved : (Instr.reserved 0x8).wellFormed = true := by decide

/-! ## Decoding (L2.3, L2.4) -/

theorem test_decode_clear : decode 0x00000000000000000000000000000000 = .instr (.clear 0) := by decide
theorem test_decode_clear_sym_ignored : decode 0xFFFFFFFFFFFFFFFF0000000000000000 = .instr (.clear 0) := by decide
theorem test_decode_turnOn : decode 0x0000000002030101 = .instr (.turnOn 3 2 1) := by decide
theorem test_decode_onColumn : decode 0x0000000000070202 = .instr (.onColumn 7 2) := by decide
theorem test_decode_onRow : decode 0x0000000007000203 = .instr (.onRow 7 2) := by decide
theorem test_decode_customColumn : decode 0x0000018100020104 = .instr (.customColumn 0x81 2 1 1) := by decide
theorem test_decode_customRow : decode 0x0000FE0F07000105 = .instr (.customRow 0x0F 7 1 0xFE) := by decide
theorem test_decode_symbol : decode 0x3C4299A581A5423C0000000000000206 =
    .instr (.symbol 0x3C 0x42 0xA5 0x81 0xA5 0x99 0x42 0x3C 2) := by decide
theorem test_decode_test : decode 0x0000AABBCCDD1107 = .instr .test := by decide
theorem test_decode_reserved_first : decode 0x000100000000000F = .instr (.reserved 0x000100000000000F) := by decide
theorem test_decode_rsv0 : decode 0x00000000000000F0 = .rejected .reservedField := by decide
theorem test_decode_rsv1 : decode 0x8000000000000001 = .rejected .reservedField := by decide
theorem test_decodeTableWord : decodeTableWord 128 0x0000080100000105 = some (.customRow 0x01 0 1 8) ∧
    decodeTableWord 128 0x8 = some (.reserved 0x8) ∧ decodeTableWord 128 0x10 = none := by decide

/-! ## Encoding and assembling (L2.4, L3; R56) -/

theorem test_encode_turnOn : encode (.turnOn 9 0xFC 9) = 0x00000000FC090901 := by decide
theorem test_encode_symbol : encode (.symbol 0x3C 0x42 0xA5 0x81 0xA5 0x99 0x42 0x3C 2) =
    0x3C4299A581A5423C0000000000000206 := by decide
theorem test_assemble_negative : assembleLine "turnOn       127, -128, 255" = some 0x00000000807FFF01 := by decide
theorem test_assemble_shift : assembleLine "customRow    0x0F, 7, 1, -2" = some 0x0000FE0F07000105 := by decide
theorem test_assemble_short : assembleLine "customColumn 0x81, 5" = some 0x0000008100050004 := by decide
theorem test_assemble_symbol : assembleLine "symbol   0x3C,0x42,0xA5,0x81,0xA5,0x99,0x42,0x3C, 2" =
    some 0x3C4299A581A5423C0000000000000206 := by decide
theorem test_assemble_refuses : assembleLine "onRow 200" = none ∧ assembleLine "clear 256" = none := by decide

/-! ## Operands (L2.1) -/

theorem test_adjustShift : adjustShift 0xFF 127 = 0x80 ∧ adjustShift 0x81 1 = 0x02 ∧ adjustShift 0x81 0xFF = 0x40 ∧
    adjustShift 0xFF 0x80 = 0x01 ∧ adjustShift 0x0F 0xFE = 0x03 ∧ adjustShift 0xA5 0 = 0xA5 := by decide
theorem test_clamp07 : clamp07 0x80 = 0 ∧ clamp07 0xFC = 0 ∧ clamp07 3 = 3 ∧ clamp07 7 = 7 ∧ clamp07 8 = 7 ∧
    clamp07 127 = 7 := by decide
theorem test_chipIndex : chipIndex 3 0 = 0 ∧ chipIndex 3 1 = 0 ∧ chipIndex 3 2 = 1 ∧ chipIndex 3 3 = 2 ∧
    chipIndex 3 4 = 2 ∧ chipIndex 3 255 = 2 ∧ chipIndex 1 255 = 0 := by decide

/-! ## Transport (L2.2, R69) -/

theorem test_sendByte : (sendByte 0xA5).filterMap (fun e => match e with | .din l => some l | _ => none) =
    [true, false, true, false, false, true, false, true] := by decide
theorem test_frame_0C01 : (frame [⟨0x0C, 0x01⟩]).length = 51 ∧
    wireFrames false (frame [⟨0x0C, 0x01⟩]) = [wordBits 0x0C 0x01] := by decide
theorem test_flush_rows : flushGroups 1 [(0, 0x20), (512, 0x08), (1792, 0x03)] =
    [[⟨1, 0x20⟩], [⟨2, 0⟩], [⟨3, 0x08⟩], [⟨4, 0⟩], [⟨5, 0⟩], [⟨6, 0⟩], [⟨7, 0⟩], [⟨8, 0x03⟩]] := by decide

/-! ## One step of each command (L2.4, L2.5, L2.3) -/

theorem test_clear_2 : fbAfterWord 2 (chipFilled 1 0x01 (chipFilled 0 0x80 [])) 0x200 =
    some (chipFilled 0 0x80 []) := by decide
theorem test_clear_all : fbAfterWord 2 (chipFilled 1 0x01 (chipFilled 0 0x80 [])) 0x0 = some [] := by decide
theorem test_turnOn_overwrites : fbAfterWord 2 [(512, 0xF0)] 0x0000000002030101 = some [(512, 0x08)] := by decide
theorem test_turnOn_clamps : fbAfterWord 2 [] 0x00000000FC090901 = some [(1, 0x80)] := by decide
theorem test_onColumn_ors : fbAfterWord 2 (chipFilled 0 0x10 []) 0x0000000000000102 =
    some (chipFilled 0 0x11 []) := by decide
theorem test_onRow : fbAfterWord 2 [] 0x0000000007000203 = some [(1793, 0xFF)] := by decide
theorem test_customColumn_shifts : fbAfterWord 2 [] 0x0000018100020104 = some [(256, 0x04)] := by decide
theorem test_customColumn_keeps : fbAfterWord 2 [(0, 0x01)] 0x0000F8FF00030104 = some [(0, 0x09)] := by decide
theorem test_customRow_right : fbAfterWord 2 [(768, 0xF0)] 0x0000FE0F03000105 = some [(768, 0x03)] := by decide
theorem test_customRow_zero : fbAfterWord 2 [(1025, 0xFF)] 0x0000000004000205 = some [] := by decide
theorem test_symbol : fbAfterWord 2 [(0, 0x55), (1, 0xAA)] 0x3C4299A581A5423C0000000000000206 =
    some [(0, 0x55), (1, 0x3C), (257, 0x42), (513, 0xA5), (769, 0x81), (1025, 0xA5), (1281, 0x99), (1537, 0x42),
      (1793, 0x3C)] := by decide
theorem test_test : (next? (step ((idleAt 2 [(0, 0x55)] []).withFetchWord 128 0x7))).map
    (fun t => (t.fb, t.phase, t.pc, t.ev.length)) = some ([(0, 0x55)], .busy, 0, 200) := by decide +kernel
theorem test_reserved : (next? (step ((idleAt 2 [] []).withFetchWord 128 0x9))).map
    (fun t => (t.ill, t.illCause, t.illWord, t.phase)) = some (true, 0b01, 0x9, .idle) := by decide
theorem test_reserved_field : (next? (step ((idleAt 2 [] []).withFetchWord 128 0x0001000000000001))).map
    (fun t => (t.ill, t.illCause, t.illWord, t.fb)) = some (true, 0b10, 0x0001000000000001, []) := by decide

/-! ## Reset (L2.6, R29, R109) -/

theorem test_reset_step : (next? (step { idleAt 2 [(0, 0x55)] [.reset (cfgN 2)] with ill := true, cs := false })).map
    (fun t => (t.fb, t.cs, t.phase, t.ill)) = some ([], true, .init, false) := by decide
theorem test_reset_samples : (next? (step (idleAt 1 [] [.reset (cfgN 2)]))).map
    (fun t => (t.cfgAmount, t.cfg.n, t.chain.length)) = some (2, 2, 2) := by decide
theorem test_reset_inside_frame_frees_intensity :
    (next? (step { idleAt 1 [] [.reset (cfgN 1)] with cs := false, free := 5 })).map
      (fun t => chainReg t.chain 1 0xA) = some (Config.freeReg 5 1 0xA) := by
  have h := freeRegs_read 5 1 (leftByReset (cfgN 1)) [] 0xA
  rw [if_pos (by decide)] at h
  exact congrArg some h
theorem test_reset_first_event : (next? (step State.reset)).map (fun t => (t.cs, t.pc, t.phase)) =
    some (false, 1, .init) := by decide +kernel
theorem test_reset_mem_wf : State.reset.fb.wf := by decide

/-! ## Hypotheses that are met: decoding, the assembler, operands

Each theorem is named after its statement; each conjunct is one clause's hypotheses at a boundary of its range. -/

theorem met_DecodeEncodeRoundTrip : (Instr.customRow 0xFF 0x80 0xFF 0x7F).wellFormed = true ∧
    (Instr.reserved 0xFFFFFFFFFFFFFFFFFFFFFFFFFFFFFFFF).wellFormed = true := by decide

theorem met_DecodeFollowsTheStatedOrder :
    (0x000100000000000F : CmdWord).getLsbD 3 = true ∧ (0x8 : CmdWord).getLsbD 3 = true ∧
    ((0x17 : CmdWord).getLsbD 3 = false ∧ (0x17 : CmdWord).extractLsb' 4 4 ≠ 0#4) ∧
    ((0x8000000000000001 : CmdWord).getLsbD 3 = false ∧ (0x8000000000000001 : CmdWord).extractLsb' 48 16 ≠ 0#16) ∧
    ∀ op : Fin 8, (BitVec.ofNat 128 op).extractLsb' 4 4 = 0#4 ∧ (BitVec.ofNat 128 op).extractLsb' 48 16 = 0#16 ∧
      (BitVec.ofNat 128 op).extractLsb' 0 4 = BitVec.ofNat 4 op := by decide

theorem met_TableRowsSelectTheirCommand :
    (∀ op : Fin 8, (0xFFFFFFFFFFFFFFFF0000FFFFFFFFFF00#128 ||| BitVec.ofNat 128 op) &&&
      0x0000000000000000FFFF0000000000FF#128 = BitVec.ofNat 128 op) ∧
    (0xF#128 &&& 0x8#128 = 0x8#128) ∧
    (0x17#128 &&& 0x8#128 = 0x0#128 ∧ 0x17#128 &&& 0x0000000000000000FFFF0000000000F0#128 ≠ 0x0#128) := by decide

theorem met_UnusedFieldsHaveNoEffect : (0x7 : CmdWord).getLsbD 3 = false ∧ (0x7 : CmdWord).extractLsb' 4 4 = 0#4 ∧
    (0x7 : CmdWord).extractLsb' 48 16 = 0#16 ∧ (0x7 : CmdWord) ^^^ (0x0000AABBCCDD1100 &&& ignoredBits 0x7) =
    0x0000AABBCCDD1107 := by decide

theorem met_AssembledOperandsReadBack : isU8 0 ∧ isU8 255 ∧ ¬ isU8 256 ∧ ¬ isU8 (-1) ∧ isS8 (-128) ∧ isS8 127 ∧
    ¬ isS8 128 ∧ ¬ isS8 (-129) := by decide

theorem met_RowsAndColumnsAreClamped : (0x80 : Byte).toInt < 0 ∧ (0xFF : Byte).toInt < 0 ∧
    (0 ≤ (0x00 : Byte).toInt ∧ (0x00 : Byte).toInt ≤ 7) ∧ (0 ≤ (0x07 : Byte).toInt ∧ (0x07 : Byte).toInt ≤ 7) ∧
    7 < (0x08 : Byte).toInt ∧ 7 < (0x7F : Byte).toInt ∧ clamp07 0x09 = clamp07 0x07 ∧
    clamp07 0xFC = clamp07 0x00 := by decide

theorem met_ShiftClampsAndDiscards : 0 < (0x01 : Byte).toInt ∧ 0 < (0x7F : Byte).toInt ∧ (0xFF : Byte).toInt < 0 ∧
    (0x80 : Byte).toInt < 0 ∧ (0x00 : Byte).toInt = 0 := by decide

theorem met_ChipSelectorStaysInTheChain : (1 ≤ (1 : Byte).toNat ∧ (1 : Byte).toNat ≤ 1) ∧
    (1 ≤ (255 : Byte).toNat ∧ (255 : Byte).toNat ≤ 255) ∧ 3 < (4 : Byte).toNat ∧ 1 ≤ 1 := by decide

/-! ## Commands -/

theorem met_ClearZeroesAllOrOneChip : 1 < (cfgN 2).n ∧ (∀ r, r < 8 → ∀ j, j < (cfgN 2).n → 2 ≠ fbAddr r j) ∧
    (1 : Byte) ≠ 0 ∧ (255 : Byte) ≠ 0 ∧ ∀ r, r < 8 → fbAddr 0 1 ≠ fbAddr r (chipIndex 2 1) := by decide

theorem met_otherAddress : fbAddr 7 0 ≠ fbAddr (clamp07 7) (chipIndex 2 2) ∧
    fbAddr 6 1 ≠ fbAddr (clamp07 7) (chipIndex 2 2) := by decide

theorem met_ReservedOpcodeIsRejected : (idleAt 1 [] []).ill = false ∧
    { idleAt 1 [] [] with ill := true, illCause := 0b10, illWord := 0x10 }.ill = true := by decide

/-! ## Acceptance -/

theorem met_StepRunsTheAcceptedCommand : (cfgN 255).ok = true ∧ (idleAt 1 [] [.offer 0x7]).phase = .idle ∧
    (idleAt 1 [] [.offer 0x7]).host = [.offer 0x7] ∧ (idleAt 1 [] [.hold 0x10, .quiet]).host = [.hold 0x10, .quiet] ∧
    decode 0x7 = .instr .test ∧ decode 0x10 = .rejected .reservedField := by decide

theorem met_RejectedWordHasNoOtherEffect : (idleAt 1 [] [.hold 0x8]).cfg.ok = true ∧
    decode 0x8 = .instr (.reserved 0x8) ∧ decode 0xF0 = .rejected .reservedField ∧
    (idleAt 1 [] [.hold 0x8]).ill = false ∧
    { idleAt 1 [] [.offer 0xF0] with ill := true }.ill = true := by decide

theorem met_ErrorStatusIsSticky :
    ∃ t, step { idleAt 1 [] [.offer 0x10] with ill := true, illCause := 0b01, illWord := 0x9 } = .next t :=
  ⟨_, rfl⟩

theorem met_IdleWithoutWordChangesNothing : (idleAt 1 [] [.quiet]).host = [.quiet] ∧ (idleAt 1 [] []).host = [] ∧
    (idleAt 1 [] []).phase = .idle ∧ (idleAt 1 [] []).cfg.ok = true := by decide

theorem met_WordsWaitWhileBusy :
    (∃ t, step (busyAt true false false [.cs false, .cs true] [.hold 0x7]) = .next t) ∧
    (∃ t, step (busyAt true false false [.cs false, .cs true] [.offer 0x7]) = .next t) ∧
    (busyAt true false false [.cs false, .cs true] []).phase ≠ .idle := ⟨⟨_, rfl⟩, ⟨_, rfl⟩, by decide⟩

/-! ## Events -/

theorem met_OneEventPerStep : ∀ e ∈ [Event.cs false, .clk true, .din true, .wait .pause],
    (busyAt true false false [e] []).ev[(busyAt true false false [e] []).pc]? = some e ∧
    (busyAt true false false [e, .cs true] []).ev[(busyAt true false false [e, .cs true] []).pc]? = some e ∧
    (busyAt true false false [e] []).rst = false ∧ (busyAt true false false [e] []).cfg.ok = true := by decide

theorem met_PinsMoveOnlyByTheirEvents :
    (∃ t, step (busyAt true false false [.cs false] []) = .next t ∧ t.cs ≠ true) ∧
    (∃ t, step (busyAt false false false [.clk true] []) = .next t ∧ t.clk ≠ false) ∧
    (∃ t, step (busyAt false false false [.din true] []) = .next t ∧ t.din ≠ false) :=
  ⟨⟨_, rfl, by decide⟩, ⟨_, rfl, by decide⟩, ⟨_, rfl, by decide⟩⟩

/-- FlushOnTheWire, ControlWritesOnTheWire, FlushEventCounts, ControlEventCounts, WaitsBoundTheTime. -/
theorem met_cadences : (cfgN 2).cadence = .group ∧ { cfgN 2 with cadence := .pair }.cadence = .pair ∧
    { cfgN 2 with cadence := .flush }.cadence = .flush ∧ (cfgN 2).cadence ≠ .pair := by decide

theorem met_RegisterBytesOfTheMap : [⟨0x08, 0x00⟩] ∈ framing .pair .flushProg (flushGroups 1 []) ∧
    [⟨0x0A, 0x05⟩] ∈ framing .group .other (initGroups { cfgN 1 with initIntensity := some 0x05 }) ∧
    [⟨0x0F, 0x01⟩] ∈ framing .flush .other [bcast 1 regDisplayTest 0x01] := by decide

theorem met_DinKeepsTheLastBit : 1 ≤ (busyAt true false true [] []).cfg.n := by decide

/-! ## Reset, configuration, outputs -/

theorem met_ResetOverridesEverything :
    (busyAt false true true [.clk false, .cs true] [.reset (cfgN 2), .quiet]).host = [.reset (cfgN 2), .quiet] ∧
    (cfgN 2).ok = true := by decide

theorem met_ConfigurationOutOfRangeIsRefused : (idleAt 0 [] []).cfgNow.n = 0 ∧
    255 < (idleAt 1 [] [.reset (cfgN 256)]).cfgNow.n ∧
    (1 ≤ (idleAt 1 [] []).cfgNow.n ∧ (idleAt 1 [] []).cfgNow.n ≤ 255) ∧
    (1 ≤ (idleAt 1 [] [.reset (cfgN 255)]).cfgNow.n ∧ (idleAt 1 [] [.reset (cfgN 255)]).cfgNow.n ≤ 255) ∧
    (idleAt 1 [] []).rst = false ∧ (idleAt 1 [] [.reset (cfgN 255)]).host = [.reset (cfgN 255)] := by decide

theorem met_ParametersAreSampledAtReset : (∃ t, step (idleAt 1 [] [.reset (cfgN 255)]) = .next t) ∧
    (∃ t, step (idleAt 1 [] [.quiet]) = .next t) ∧ (idleAt 1 [] [.quiet]).rst = false := ⟨⟨_, rfl⟩, ⟨_, rfl⟩, rfl⟩

theorem met_OrientationHasNoEffect : (∃ t, step (idleAt 1 [] [.offer 0x7]) = .next t) ∧
    step (busyAt true false false [] []) = .fault .noEventLeft ∧
    step (idleAt 0 [] []) = .refused .configurationOutOfRange := ⟨⟨_, rfl⟩, rfl, rfl⟩

theorem met_ReadPortShowsTheFramebuffer : (1 : Byte).toNat < (cfgN 2).n ∧ (cfgN 2).n ≤ (2 : Byte).toNat ∧
    (254 : Byte).toNat < (cfgN 255).n := by decide

theorem met_StatusOutputs : (busyAt true false false [] []).phase ≠ .idle ∧ (idleAt 1 [] [.reset (cfgN 1)]).rst = true ∧
    (cfgN 255).ok = true := by decide

/-! ## Invariants -/

/-- A frame about to begin, with no word offered. -/
def frameStart : State := busyAt true false false (frame [⟨0x01, 0x80⟩]) []

theorem met_EveryStepKeepsTheFraming : SequencerInv frameStart ∧ (∃ t, step frameStart = .next t) ∧
    SequencerInv (idleAt 2 [] []) ∧ (∃ t, step (idleAt 2 [] [.offer 0x0]) = .next t) :=
  ⟨⟨by decide, by decide, by decide⟩, ⟨_, rfl⟩, ⟨by decide, by decide, by decide⟩, ⟨_, rfl⟩⟩

theorem met_ResetMeetsTheFraming : (cfgN 1).ok = true ∧ (cfgN 255).ok = true := by decide

theorem met_NoStepFaults : SequencerInv frameStart ∧ frameStart.cfgNow.ok = true ∧
    SequencerInv (idleAt 1 [] [.reset (cfgN 255)]) ∧ (idleAt 1 [] [.reset (cfgN 255)]).cfgNow.ok = true :=
  ⟨⟨by decide, by decide, by decide⟩, rfl, ⟨by decide, by decide, by decide⟩, rfl⟩

theorem met_EveryStepKeepsTheFramebuffer : FramebufferInv (idleAt 2 [(0, 0x01), (1793, 0xFF)] [.offer 0x2]) ∧
    ∃ t, step (idleAt 2 [(0, 0x01), (1793, 0xFF)] [.offer 0x2]) = .next t := by
  refine ⟨⟨by decide, fun c hc => ?_⟩, _, rfl⟩
  simp only [idleAt, List.mem_cons, List.not_mem_nil, or_false] at hc
  rcases hc with rfl | rfl
  · exact ⟨0, 0, by decide⟩
  · exact ⟨7, 1, by decide⟩

theorem met_EveryStepKeepsTheStatus : StatusInv (idleAt 1 [] [.offer 0x10]) ∧
    StatusInv { idleAt 1 [] [.offer 0x10] with ill := true, illCause := 0b01, illWord := 0x9 } ∧
    StatusInv { idleAt 1 [] [.offer 0x9] with ill := true, illCause := 0b10, illWord := 0x10 } ∧
    ∃ t, step (idleAt 1 [] [.offer 0x10]) = .next t :=
  ⟨by unfold StatusInv; decide, by unfold StatusInv; decide, by unfold StatusInv; decide, _, rfl⟩

/-- One chip whose register 1 holds the framebuffer's row 0. -/
def shown : State := { idleAt 1 [(0, 0x81)] [.offer 0x7] with chain := [{ sr := 0x0800, regs := [(1, 0x81)] }] }

theorem met_EveryStepKeepsTheChain : ChainInv shown ∧ ∃ t, step shown = .next t := by
  refine ⟨⟨rfl, fun c hc => ?_⟩, _, rfl⟩
  cases List.mem_singleton.mp hc
  decide

theorem met_FramebufferWrittenOnlyByCommands :
    (∃ t, step (idleAt 1 [] [.offer 0x1]) = .next t ∧ t.fb ≠ []) ∧
    (∃ t, step (idleAt 1 [(0, 0x81)] [.reset (cfgN 1)]) = .next t ∧ t.fb ≠ [(0, 0x81)]) :=
  ⟨⟨_, rfl, by decide⟩, ⟨_, rfl, by decide⟩⟩

/-! ## The chips, progress -/

theorem met_GroupFrameReachesEveryChip : (idleAt 2 [] []).cs = true ∧ (idleAt 2 [] []).clk = false ∧
    (idleAt 2 [] []).chain.length = [0x3C#8, 0x42#8].length ∧ 1 ≤ 2 ∧ 2 ≤ [0x3C#8, 0x42#8].length := by decide

theorem met_DisplayTestLightsEveryChip : shown.cfg.cadence ≠ .pair ∧ shown.cs = true ∧ shown.clk = false ∧
    shown.chain.length = shown.cfg.n ∧ 1 ≤ shown.cfg.n ∧
    { shown with cfg := { cfgN 1 with cadence := .pair } }.cfg.cadence = .pair := by decide

theorem met_ChipsChangeOnlyAtSelectRise :
    ∃ t, step { busyAt false false false [.cs true] [] with chain := [{ sr := 0x0181, regs := [] }] } = .next t ∧
      t.chain.length = 1 ∧ chainReg t.chain 1 1 ≠ chainReg [{ sr := 0x0181, regs := [] }] 1 1 :=
  ⟨_, rfl, by decide, by decide⟩

theorem met_EveryStepKeepsTheChipsInStep : shown.cfg.cadence = .group ∧ SequencerInv shown ∧ ChainInv shown ∧
    GroupChainInv shown ∧ ∃ t, step shown = .next t := by
  refine ⟨rfl, ⟨by decide, by decide, by decide⟩, met_EveryStepKeepsTheChain.1, fun _ => ?_, _, rfl⟩
  intro r hr p h1 h2
  have : p = 1 := Nat.le_antisymm h2 h1
  subst this
  interval_cases r <;> decide

theorem met_ResetSequenceBringsTheChipsInStep : (cfgN 2).ok = true ∧ (cfgN 2).cadence = .group ∧
    [{ sr := 0x0855, regs := [(10, 0x0F)] }, Chip.powerUp].length = (cfgN 2).n := by decide

/-- PairCadenceShowsTheLastChip and FlushCadenceWritesOnlyRowSeven. -/
theorem met_otherCadences : ∀ c ∈ [Cadence.pair, .flush],
    { idleAt 2 [] [] with cfg := { cfgN 2 with cadence := c } }.cfg.cadence = c ∧
    { idleAt 2 [] [] with cfg := { cfgN 2 with cadence := c } }.chain.length = (cfgN 2).n ∧
    (idleAt 2 [] []).cs = true ∧ (idleAt 2 [] []).clk = false ∧ 1 ≤ 2 ∧ 2 ≤ (cfgN 2).n := by decide

/-- A reset inside a frame that finds two chips and samples three. -/
def cutShort : State :=
  { idleAt 2 [] [.reset (cfgN 3)] with cs := false }

theorem met_ResetInsideAFrameLatches : cutShort.host = [.reset (cfgN 3)] ∧ (∃ t, step cutShort = .next t) ∧
    2 ≤ (cfgN 3).n ∧ 2 ≤ cutShort.chain.length ∧ cutShort.chain.length < 3 ∧ cutShort.cs = false ∧
    (∃ t, step (idleAt 1 [] [.reset (cfgN 1)]) = .next t) ∧ (idleAt 1 [] [.reset (cfgN 1)]).cs = true :=
  ⟨rfl, ⟨_, rfl⟩, by decide, by decide, by decide, rfl, ⟨_, rfl⟩, rfl⟩

theorem met_EventListRunsToIdle : (busyAt true false false (frame [⟨0x01, 0x80⟩]) [.hold 0x7]).cfg.ok = true ∧
    (busyAt true false false (frame [⟨0x01, 0x80⟩]) [.hold 0x7]).phase ≠ .idle ∧
    (busyAt true false false (frame [⟨0x01, 0x80⟩]) [.hold 0x7]).pc < (frame [⟨0x01, 0x80⟩]).length ∧
    ∀ c, .reset c ∉ (busyAt true false false (frame [⟨0x01, 0x80⟩]) [.hold 0x7]).host :=
  ⟨by decide, by decide, by decide, by simp [busyAt, idleAt]⟩

theorem met_ResetSequenceTakesItsSteps :
    (idleAt 2 [] [.reset (cfgN 1), .hold 0x7]).host = [.reset (cfgN 1), .hold 0x7] ∧ (cfgN 1).ok = true ∧
    (cfgN 1).cadence = .group ∧ (cfgN 1).initIntensity = none ∧ ∀ c, .reset c ∉ [HostMove.hold 0x7] :=
  ⟨rfl, rfl, rfl, rfl, by simp⟩

theorem met_DrawingCommandReachesTheChips : SequencerInv (idleAt 2 [] [.hold 0x2, .hold 0x7]) ∧
    (idleAt 2 [] [.hold 0x2, .hold 0x7]).cfg.ok = true ∧ (idleAt 2 [] [.hold 0x2, .hold 0x7]).cfg.cadence = .group ∧
    (idleAt 2 [] [.hold 0x2, .hold 0x7]).phase = .idle ∧ (idleAt 2 [] [.hold 0x2, .hold 0x7]).chain.length = (cfgN 2).n ∧
    (∀ c, .reset c ∉ [HostMove.hold 0x7]) ∧ decode 0x2 = .instr (.onColumn 0 0) ∧
    Instr.onColumn 0 0 ≠ .test ∧ ∀ v, Instr.onColumn 0 0 ≠ .reserved v :=
  ⟨⟨by decide, by decide, by decide⟩, by decide, by decide, by decide, by decide, by simp, by decide, by decide,
    fun _ h => by cases h⟩

end Sys2Proof.Tests
end

-- SUPPORT. The scope statements: which configurations are refused (R6), and that ORIENT changes nothing else (R7).
section

namespace Sys2Proof.Machine

/-! ## What is refused (R6) -/

theorem cfg_not_ok_iff (c : Config) : c.ok = false ↔ c.n = 0 ∨ 255 < c.n := by
  rw [← Bool.not_eq_true, cfg_ok_iff]
  omega

theorem cfgNow_of_host_reset {s : State} {c : Config} {h : List HostMove} (hh : s.host = .reset c :: h) :
    s.cfgNow = c := by
  simp [State.cfgNow, hh]

/-- The one refusal of `step`. -/
theorem step_refused {s : State} (hok : s.cfgNow.ok = false) : step s = .refused .configurationOutOfRange := by
  simp [step, hok]

theorem accept_answers (w : CmdWord) (s : State) (hn : 1 ≤ s.cfg.n) : ∃ t, accept w s = .next t := by
  rcases accept_cases w s hn with ⟨_, _, _, _, he, _⟩ | ⟨_, he⟩ | ⟨_, _, he⟩ <;> exact ⟨_, he⟩

theorem idleStep_answers (s : State) (hn : 1 ≤ s.cfg.n) : ∃ t, idleStep s = .next t := by
  cases ho : s.offered with
  | none => exact ⟨s.hostWaits, by rw [idleStep, ho]⟩
  | some w =>
    obtain ⟨t, ht⟩ := accept_answers w s.hostTaken hn
    exact ⟨t, by rw [idleStep, ho]; exact ht⟩

theorem performNext_ne_refused (s : State) (r : Refusal) : performNext s ≠ .refused r := by
  unfold performNext
  split <;> nofun

/-- An admitted configuration is never refused, whichever kind of step it is. -/
theorem step_ne_refused {s : State} (hok : s.cfgNow.ok = true) (r : Refusal) : step s ≠ .refused r := by
  cases hr : s.rst with
  | true =>
    rw [step_reset hok hr]
    nofun
  | false =>
    rw [cfgNow_of_rst hr] at hok
    by_cases hp : s.phase = .idle
    · obtain ⟨t, ht⟩ := idleStep_answers s ((cfg_ok_iff _).mp hok).1
      rw [step_idle hok hr hp, ht]
      nofun
    · rw [step_running hok hr hp]
      exact performNext_ne_refused _ r

/-- Settles O37, by the one refusal of `step` and the kinds of step an admitted configuration can take. -/
theorem configurationOutOfRangeIsRefused : Obligations.ConfigurationOutOfRangeIsRefused := by
  refine ⟨rfl, fun s => ⟨fun h => ?_, fun h1 h255 => ?_, cfgNow_of_rst, fun c h => cfgNow_of_host_reset⟩⟩
  · exact step_refused ((cfg_not_ok_iff _).mpr h)
  · exact step_ne_refused ((cfg_ok_iff _).mpr ⟨h1, h255⟩)

/-! ## What a change of ORIENT leaves alone (R7) -/

/-- An outcome with its next state, if it has one, changed by `f`. -/
def mapNext (f : State → State) : Host.Outcome State Fault Refusal → Host.Outcome State Fault Refusal
  | .next t => .next (f t)
  | .fault e => .fault e
  | .refused r => .refused r

@[simp] theorem mapNext_next (f : State → State) (t : State) : mapNext f (.next t) = .next (f t) := rfl
@[simp] theorem mapNext_fault (f : State → State) (e : Fault) : mapNext f (.fault e) = .fault e := rfl
@[simp] theorem mapNext_refused (f : State → State) (r : Refusal) : mapNext f (.refused r) = .refused r := rfl

section
variable (o : Byte) (s : State)

@[simp] theorem State.withOrient_cfg : (s.withOrient o).cfg = { s.cfg with orient := o } := rfl
@[simp] theorem State.withOrient_host : (s.withOrient o).host = s.host.map (HostMove.withOrient o) := rfl
@[simp] theorem State.withOrient_phase : (s.withOrient o).phase = s.phase := rfl

@[simp] theorem Config.ok_orient (c : Config) : Config.ok { c with orient := o } = c.ok := rfl

/-! ### The host's ports -/

@[simp] theorem State.rst_withOrient : (s.withOrient o).rst = s.rst := by
  unfold State.rst
  rw [State.withOrient_host]
  rcases s.host with _ | ⟨_ | _ | _ | _, _⟩ <;> rfl

@[simp] theorem State.cfgNow_withOrient : (s.withOrient o).cfgNow = { s.cfgNow with orient := o } := by
  unfold State.cfgNow
  rw [State.withOrient_host]
  rcases s.host with _ | ⟨_ | _ | _ | _, _⟩ <;> rfl

@[simp] theorem State.offered_withOrient : (s.withOrient o).offered = s.offered := by
  unfold State.offered
  rw [State.withOrient_host]
  rcases s.host with _ | ⟨_ | _ | _ | _, _⟩ <;> rfl

theorem hostAfterStep_withOrient (l : List HostMove) :
    hostAfterStep (l.map (HostMove.withOrient o)) = (hostAfterStep l).map (HostMove.withOrient o) := by
  rcases l with _ | ⟨_ | _ | _ | _, _⟩ <;> rfl

theorem State.hostWaits_withOrient : (s.withOrient o).hostWaits = s.hostWaits.withOrient o := by
  simp [State.hostWaits, State.withOrient, hostAfterStep_withOrient]

theorem State.hostTaken_withOrient : (s.withOrient o).hostTaken = s.hostTaken.withOrient o := by
  simp [State.hostTaken, State.withOrient]

/-! ### The shared operations -/

theorem performEvent_withOrient (e : Event) : performEvent (s.withOrient o) e = (performEvent s e).withOrient o := by
  cases e <;> rfl

theorem performNext_withOrient : performNext (s.withOrient o) = mapNext (·.withOrient o) (performNext s) := by
  unfold performNext
  rw [show (s.withOrient o).ev[(s.withOrient o).pc]? = s.ev[s.pc]? from rfl]
  cases s.ev[s.pc]? with
  | none => rfl
  | some e => simp only [performEvent_withOrient]; rfl

theorem raiseIll_withOrient (c : IllCause) (w : CmdWord) :
    raiseIll c w (s.withOrient o) = (raiseIll c w s).withOrient o := by
  unfold raiseIll
  rw [show (s.withOrient o).ill = s.ill from rfl]
  split <;> rfl

/-- The reset sequence, and what a reset does to the chips, read `N`, `CADENCE` and the initial values only. -/
theorem resetBlock_withOrient (c : Config) :
    resetBlock { c with orient := o } (s.withOrient o) = (resetBlock c s).withOrient o := rfl

/-! ### Commands and acceptance -/

theorem exec_withOrient (i : Instr) : exec i (s.withOrient o) = mapNext (·.withOrient o) (exec i s) := by
  cases i with
  | clear nth =>
    by_cases h : nth = 0
    · subst h; rfl
    · rw [exec_clear_one h, exec_clear_one h]; rfl
  | reserved w => rw [exec_reserved, exec_reserved, raiseIll_withOrient]; rfl
  | turnOn | onColumn | onRow | customColumn | customRow | symbol | test => rfl

theorem accept_withOrient (w : CmdWord) : accept w (s.withOrient o) = mapNext (·.withOrient o) (accept w s) := by
  have hc : ({ s.withOrient o with cmd := w } : State) = ({ s with cmd := w } : State).withOrient o := rfl
  unfold accept
  rw [hc]
  cases decode w with
  | instr i => exact exec_withOrient o _ i
  | rejected c => simp only [raiseIll_withOrient, mapNext_next]

theorem idleStep_withOrient : idleStep (s.withOrient o) = mapNext (·.withOrient o) (idleStep s) := by
  unfold idleStep
  rw [State.offered_withOrient, State.hostTaken_withOrient, State.hostWaits_withOrient]
  cases s.offered with
  | none => rfl
  | some w => exact accept_withOrient o _ w

/-! ### Steps and outputs -/

/-- A step commutes with a change of ORIENT, whatever its outcome. -/
theorem step_withOrient : step (s.withOrient o) = mapNext (·.withOrient o) (step s) := by
  cases hok : s.cfgNow.ok with
  | false =>
    have hok' : (s.withOrient o).cfgNow.ok = false := by simpa using hok
    rw [step_refused hok, step_refused hok', mapNext_refused]
  | true =>
    cases hr : s.rst with
    | true =>
      have hok' : (s.withOrient o).cfgNow.ok = true := by simpa using hok
      have hr' : (s.withOrient o).rst = true := by simpa using hr
      rw [step_reset hok hr, step_reset hok' hr', State.cfgNow_withOrient, State.hostWaits_withOrient,
        resetBlock_withOrient, mapNext_next]
    | false =>
      rw [cfgNow_of_rst hr] at hok
      have hok' : (s.withOrient o).cfg.ok = true := by simpa using hok
      have hr' : (s.withOrient o).rst = false := by simpa using hr
      by_cases hp : s.phase = .idle
      · have hp' : (s.withOrient o).phase = .idle := by simpa using hp
        rw [step_idle hok hr hp, step_idle hok' hr' hp', idleStep_withOrient]
      · have hp' : (s.withOrient o).phase ≠ .idle := by simpa using hp
        rw [step_running hok hr hp, step_running hok' hr' hp', State.hostWaits_withOrient,
          performNext_withOrient]

theorem outputs_withOrient (row : BitVec 3) (chip : Byte) :
    (s.withOrient o).outputs row chip = { s.outputs row chip with cfgOrient := o } := by
  unfold State.outputs State.cmdReady
  rw [State.rst_withOrient]
  rfl

end

/-- Settles O39: a step commutes with a change of ORIENT (`step_withOrient`), and of the outputs only `cfg_orient`
follows it (`outputs_withOrient`). -/
theorem orientationHasNoEffect : Obligations.OrientationHasNoEffect := by
  refine ⟨rfl, fun o s => ⟨fun t h => ?_, fun f h => ?_, fun r h => ?_, outputs_withOrient o s, rfl⟩⟩
  · rw [step_withOrient, h, mapNext_next]
  · rw [step_withOrient, h, mapNext_fault]
  · rw [step_withOrient, h, mapNext_refused]

end Sys2Proof.Machine
end

-- SUPPORT. The state's statements: which events move a pin (R18), the state right after reset (R29), and what the outputs
-- show of the state (R22, R24, R27).
section

namespace Sys2Proof.Machine

/-! ## The pins (R18) -/

/-- No acceptance, whether it draws, starts `test` or rejects, moves a pin. -/
theorem accept_keeps_pins {w : CmdWord} {s t : State} (hn : 1 ≤ s.cfg.n) (h : accept w s = .next t) :
    t.cs = s.cs ∧ t.clk = s.clk ∧ t.din = s.din := by
  rcases accept_next_cases hn h with ⟨_, _, _, _, rfl, _, _⟩ | ⟨_, rfl⟩ | ⟨_, _, rfl⟩ <;> simp

/-- What a step without reset can do to the pins: leave them, or what the event at `pc` does. -/
theorem step_pins_cases {s t : State} (h : step s = .next t) (hr : s.rst = false) :
    (t.cs = s.cs ∧ t.clk = s.clk ∧ t.din = s.din) ∨
    (s.phase ≠ .idle ∧ ∃ e, s.ev[s.pc]? = some e ∧ t = (performEvent s.hostWaits e).advance) := by
  obtain ⟨-, hok, hreset | hquiet | htaken | hevent⟩ := step_cases h
  · exact absurd hreset.1 (by simp [hr])
  · obtain ⟨-, -, -, rfl⟩ := hquiet
    exact .inl ⟨rfl, rfl, rfl⟩
  · obtain ⟨-, -, w, -, ha⟩ := htaken
    exact .inl (accept_keeps_pins (s := s.hostTaken) ((cfg_ok_iff _).mp (hok hr)).1 ha)
  · exact .inr hevent.2

theorem event_of_cs_change {s : State} {e : Event} (h : (performEvent s e).cs ≠ s.cs) :
    e = .cs (performEvent s e).cs := by
  cases e with
  | cs l => rfl
  | clk | din | wait => exact absurd rfl h

theorem event_of_clk_change {s : State} {e : Event} (h : (performEvent s e).clk ≠ s.clk) :
    e = .clk (performEvent s e).clk := by
  cases e with
  | clk l => rfl
  | cs | din | wait => exact absurd rfl h

theorem event_of_din_change {s : State} {e : Event} (h : (performEvent s e).din ≠ s.din) :
    e = .din (performEvent s e).din := by
  cases e with
  | din l => rfl
  | cs | clk | wait => exact absurd rfl h

/-- Settles O26: a step without reset leaves the pins or performs the event at `pc` (`step_pins_cases`), and an event
changes only the pin it names. -/
theorem pinsMoveOnlyByTheirEvents : Obligations.PinsMoveOnlyByTheirEvents := by
  intro s t h hr
  rcases step_pins_cases h hr with ⟨hcs, hclk, hdin⟩ | ⟨hp, e, he, rfl⟩
  · exact ⟨(absurd hcs ·), (absurd hclk ·), (absurd hdin ·)⟩
  · exact ⟨fun hc => ⟨hp, he.trans (congrArg some (event_of_cs_change hc))⟩,
      fun hc => ⟨hp, he.trans (congrArg some (event_of_clk_change hc))⟩,
      fun hc => ⟨hp, he.trans (congrArg some (event_of_din_change hc))⟩⟩

/-! ## The state right after reset (R29) -/

/-- The framebuffer of the state right after reset is 0x00 in every cell. -/
@[simp] theorem State.fbRead_resetOf (cfg : Config) (r j : Nat) : (State.resetOf cfg).fbRead r j = 0x00 :=
  Memory.read_nil _

/-- Settles O36: the framebuffer reads 0x00 (`State.fbRead_resetOf`), and every other value of R29's table and every
default of R6 to R10 is what `State.resetOf` and `Config.thisHardware` write down. -/
theorem resetStateIsAsStated : Obligations.ResetStateIsAsStated :=
  ⟨fun cfg => ⟨State.fbRead_resetOf cfg, rfl, rfl, rfl, rfl, rfl, rfl, rfl, rfl, rfl, rfl⟩,
    rfl, rfl, rfl, rfl, rfl, rfl, rfl, rfl, rfl⟩

/-! ## The outputs (R22, R24, R27) -/

theorem State.fbRdData_of_lt {s : State} (row : BitVec 3) {chip : Byte} (h : chip.toNat < s.cfg.n) :
    s.fbRdData row chip = s.fbRead row.toNat chip.toNat := if_pos h

theorem State.fbRdData_of_le {s : State} (row : BitVec 3) {chip : Byte} (h : s.cfg.n ≤ chip.toNat) :
    s.fbRdData row chip = 0x00 := if_neg (Nat.not_lt.mpr h)

/-- Settles O40, by the two cases of the read port. -/
theorem readPortShowsTheFramebuffer : Obligations.ReadPortShowsTheFramebuffer :=
  fun _ row _ => ⟨State.fbRdData_of_lt row, State.fbRdData_of_le row⟩

theorem State.busy_iff (s : State) : s.busy = true ↔ s.phase ≠ .idle := bne_iff_ne

theorem State.cmdReady_iff (s : State) : s.cmdReady = true ↔ s.phase = .idle ∧ s.rst = false := by
  simp [State.cmdReady]

/-- An admitted `N` fits the eight bits of `cfg_amount`. -/
theorem State.toNat_cfgAmount {s : State} (hok : s.cfg.ok = true) : s.cfgAmount.toNat = s.cfg.n := by
  have h255 : s.cfg.n ≤ 255 := ((cfg_ok_iff _).mp hok).2
  rw [State.cfgAmount, BitVec.toNat_ofNat, Nat.mod_eq_of_lt (Nat.lt_succ_of_le h255)]

/-- Settles O41, by what each status output says of the state. -/
theorem statusOutputs : Obligations.StatusOutputs :=
  fun s _ _ => ⟨s.busy_iff, s.cmdReady_iff, State.toNat_cfgAmount, rfl⟩

end Sys2Proof.Machine
end

-- SUPPORT. The encoding's statements: the decoder in the order of R54, the fields an opcode does not use (R53), and the
-- reserved row (R51).
section

namespace Sys2Proof.Machine

/-! ## The opcode map (R50) -/

section
variable {w : CmdWord}

theorem decodeOp_clear (h : fieldOP w = 0x0) : decodeOp w = .clear (fieldNTH w) := by simp [decodeOp, h]

theorem decodeOp_turnOn (h : fieldOP w = 0x1) :
    decodeOp w = .turnOn (fieldCOL w) (fieldROW w) (fieldNTH w) := by simp [decodeOp, h]

theorem decodeOp_onColumn (h : fieldOP w = 0x2) : decodeOp w = .onColumn (fieldCOL w) (fieldNTH w) := by
  simp [decodeOp, h]

theorem decodeOp_onRow (h : fieldOP w = 0x3) : decodeOp w = .onRow (fieldROW w) (fieldNTH w) := by
  simp [decodeOp, h]

theorem decodeOp_customColumn (h : fieldOP w = 0x4) :
    decodeOp w = .customColumn (fieldDATA w) (fieldCOL w) (fieldNTH w) (fieldSHIFT w) := by simp [decodeOp, h]

theorem decodeOp_customRow (h : fieldOP w = 0x5) :
    decodeOp w = .customRow (fieldDATA w) (fieldROW w) (fieldNTH w) (fieldSHIFT w) := by simp [decodeOp, h]

theorem decodeOp_symbol (h : fieldOP w = 0x6) :
    decodeOp w = .symbol (fieldSYM w 0) (fieldSYM w 1) (fieldSYM w 2) (fieldSYM w 3) (fieldSYM w 4) (fieldSYM w 5)
      (fieldSYM w 6) (fieldSYM w 7) (fieldNTH w) := by simp [decodeOp, h]

theorem decodeOp_test (h : fieldOP w = 0x7) : decodeOp w = .test := by simp [decodeOp, h]

/-! ## The order of R54, and acceptance by what the word spells -/

theorem decode_of_reservedOpcode (h3 : w.getLsbD 3 = true) : decode w = .instr (.reserved w) := by
  rw [decode, if_pos h3]

theorem decode_of_reservedField (h3 : w.getLsbD 3 = false) (hr : fieldRSV0 w ≠ 0 ∨ fieldRSV1 w ≠ 0) :
    decode w = .rejected .reservedField := by
  rw [decode, h3, if_neg Bool.false_ne_true, if_pos hr]

theorem accept_of_instr {i : Instr} (h : decode w = .instr i) (s : State) :
    accept w s = exec i { s with cmd := w } := by rw [accept, h]

theorem accept_of_rejected {c : IllCause} (h : decode w = .rejected c) (s : State) :
    accept w s = .next (raiseIll c w { s with cmd := w }) := by rw [accept, h]

end

/-- Settles O2: the two rejections come first (`decode_of_reservedOpcode`, `decode_of_reservedField`), and a word past both
is read by the opcode map. -/
theorem decodeFollowsTheStatedOrder : Obligations.DecodeFollowsTheStatedOrder := by
  intro w s
  refine ⟨fun h3 => accept_of_instr (decode_of_reservedOpcode h3) s,
    fun h3 hr => accept_of_rejected (decode_of_reservedField h3 hr) s, fun h0 h1 => ?_⟩
  have mapped {op : BitVec 4} {i : Instr} (hop : fieldOP w = op) (h3 : op.getLsbD 3 = false)
      (hi : decodeOp w = i) : decode w = .instr i := by
    rw [decode_of_legal (by rw [getLsbD_three, hop, h3]) h0 h1, hi]
  exact ⟨fun h => mapped h rfl (decodeOp_clear h), fun h => mapped h rfl (decodeOp_turnOn h),
    fun h => mapped h rfl (decodeOp_onColumn h), fun h => mapped h rfl (decodeOp_onRow h),
    fun h => mapped h rfl (decodeOp_customColumn h), fun h => mapped h rfl (decodeOp_customRow h),
    fun h => mapped h rfl (decodeOp_symbol h), fun h => mapped h rfl (decodeOp_test h)⟩

/-! ## The fields an opcode does not use (R53) -/

/-- `w` with the bits of `x` flipped, as far as the opcode of `w` ignores them. -/
def flipIgnored (w x : CmdWord) : CmdWord := w ^^^ (x &&& ignoredBits (fieldOP w))

/-- A slice in which the opcode ignores no bit is left as it was. -/
theorem extractLsb'_flipIgnored {w : CmdWord} {a n : Nat} (h : (ignoredBits (fieldOP w)).extractLsb' a n = 0#n)
    (x : CmdWord) : (flipIgnored w x).extractLsb' a n = w.extractLsb' a n := by
  rw [flipIgnored, BitVec.extractLsb'_xor, BitVec.extractLsb'_and, h, BitVec.and_zero, BitVec.xor_zero]

/-- No opcode ignores a bit of `OP` or of the reserved fields. -/
theorem ignoredBits_keep_legality : ∀ op : BitVec 4, (ignoredBits op).extractLsb' 0 4 = 0 ∧
    (ignoredBits op).extractLsb' 4 4 = 0 ∧ (ignoredBits op).extractLsb' 48 16 = 0 := by decide

/-- The changed word has the opcode and the reserved fields of the word. -/
theorem flipIgnored_keeps_legality (w x : CmdWord) : fieldOP (flipIgnored w x) = fieldOP w ∧
    fieldRSV0 (flipIgnored w x) = fieldRSV0 w ∧ fieldRSV1 (flipIgnored w x) = fieldRSV1 w := by
  obtain ⟨hop, hrsv0, hrsv1⟩ := ignoredBits_keep_legality (fieldOP w)
  exact ⟨extractLsb'_flipIgnored hop x, extractLsb'_flipIgnored hrsv0 x, extractLsb'_flipIgnored hrsv1 x⟩

/-- `symbol` ignores no bit of `SYM`. -/
theorem ignoredBits_keep_symbol : ∀ i < 8, (ignoredBits 0x6).extractLsb' (64 + 8 * i) 8 = 0#8 := by decide

/-- The opcodes the map of R50 serves. -/
theorem opcode_of_bit_three_zero : ∀ op : BitVec 4, op.getLsbD 3 = false →
    op = 0x0 ∨ op = 0x1 ∨ op = 0x2 ∨ op = 0x3 ∨ op = 0x4 ∨ op = 0x5 ∨ op = 0x6 ∨ op = 0x7 := by decide

/-- Every operand field the opcode map reads lies outside the bits its opcode ignores. -/
theorem decodeOp_flipIgnored {w : CmdWord} (h3 : w.getLsbD 3 = false) (x : CmdWord) :
    decodeOp (flipIgnored w x) = decodeOp w := by
  obtain ⟨hop, -, -⟩ := flipIgnored_keeps_legality w x
  have keeps {op : BitVec 4} (h : fieldOP w = op) {a n : Nat} (hm : (ignoredBits op).extractLsb' a n = 0#n) :
      (flipIgnored w x).extractLsb' a n = w.extractLsb' a n := extractLsb'_flipIgnored (h ▸ hm) x
  rcases opcode_of_bit_three_zero _ ((getLsbD_three w).symm.trans h3) with h | h | h | h | h | h | h | h
  · rw [decodeOp_clear h, decodeOp_clear (hop.trans h)]
    exact congrArg Instr.clear (keeps h (by decide))
  · rw [decodeOp_turnOn h, decodeOp_turnOn (hop.trans h)]
    congr 1 <;> exact keeps h (by decide)
  · rw [decodeOp_onColumn h, decodeOp_onColumn (hop.trans h)]
    congr 1 <;> exact keeps h (by decide)
  · rw [decodeOp_onRow h, decodeOp_onRow (hop.trans h)]
    congr 1 <;> exact keeps h (by decide)
  · rw [decodeOp_customColumn h, decodeOp_customColumn (hop.trans h)]
    congr 1 <;> exact keeps h (by decide)
  · rw [decodeOp_customRow h, decodeOp_customRow (hop.trans h)]
    congr 1 <;> exact keeps h (by decide)
  · have nth : fieldNTH (flipIgnored w x) = fieldNTH w := keeps h (by decide)
    have sym : ∀ i < 8, fieldSYM (flipIgnored w x) i = fieldSYM w i := fun i hi =>
      keeps h (ignoredBits_keep_symbol i hi)
    simp (disch := decide) only [decodeOp_symbol h, decodeOp_symbol (hop.trans h), nth, sym]
  · rw [decodeOp_test h, decodeOp_test (hop.trans h)]

/-! ### No command reads the latched word (R20) -/

/-- R85: every command answers a next state, whatever the configuration. -/
theorem exec_answers (i : Instr) (s : State) : ∃ t, exec i s = .next t := by
  cases i with
  | clear nth =>
    by_cases h : nth = 0
    · exact ⟨_, by rw [h, exec_clear_all]⟩
    · exact ⟨_, exec_clear_one h s⟩
  | turnOn | onColumn | onRow | customColumn | customRow | symbol | test | reserved => exact ⟨_, rfl⟩

theorem raiseIll_setCmd (c : IllCause) (v w : CmdWord) (s : State) :
    raiseIll c v { s with cmd := w } = { raiseIll c v s with cmd := w } := by
  cases h : s.ill <;> simp [raiseIll, h]

/-- A command passes the latched word on, and does nothing else with it. -/
theorem exec_setCmd (i : Instr) (w : CmdWord) (s : State) :
    exec i { s with cmd := w } = mapNext (fun t => { t with cmd := w }) (exec i s) := by
  cases i with
  | clear nth =>
    by_cases h : nth = 0
    · subst h; rfl
    · rw [exec_clear_one h, exec_clear_one h]; rfl
  | reserved v => rw [exec_reserved, exec_reserved, raiseIll_setCmd, mapNext_next]
  | turnOn | onColumn | onRow | customColumn | customRow | symbol | test => rfl

/-- Words that spell the same command are accepted alike but for the latched word. -/
theorem accept_of_same_instr {v w : CmdWord} {i : Instr} (hv : decode v = .instr i) (hw : decode w = .instr i)
    (s : State) : ∃ t, accept w s = .next t ∧ accept v s = .next { t with cmd := v } := by
  obtain ⟨t, ht⟩ := exec_answers i { s with cmd := w }
  refine ⟨t, by rw [accept_of_instr hw, ht], ?_⟩
  calc accept v s = exec i { ({ s with cmd := w } : State) with cmd := v } := accept_of_instr hv s
    _ = .next { t with cmd := v } := by rw [exec_setCmd, ht, mapNext_next]

/-- Settles O4: the changed word is as legal as the word and reads the same operands (`decodeOp_flipIgnored`), and what
the two words both spell runs the same (`accept_of_same_instr`). -/
theorem unusedFieldsHaveNoEffect : Obligations.UnusedFieldsHaveNoEffect := by
  intro w x s h3 h0 h1
  obtain ⟨hop, hrsv0, hrsv1⟩ := flipIgnored_keeps_legality w x
  have hw : decode w = .instr (decodeOp w) := decode_of_legal h3 h0 h1
  have hv : decode (flipIgnored w x) = .instr (decodeOp w) := by
    rw [← decodeOp_flipIgnored h3 x]
    exact decode_of_legal (by rw [getLsbD_three, hop, ← getLsbD_three, h3]) (hrsv0.trans h0) (hrsv1.trans h1)
  obtain ⟨t, hwt, hvt⟩ := accept_of_same_instr hv hw s
  exact ⟨_, t, hw, hv, hwt, hvt⟩

/-! ## The reserved row (R51) -/

/-- R88: a rejection leaves everything but the error status. -/
theorem raiseIll_keepsAllButStatus (c : IllCause) (w : CmdWord) (s : State) :
    KeepsAllButStatus s (raiseIll c w s) := by
  constructor <;> simp

/-- Settles O19: the row's whole effect is the one rejection of R88 (`raiseIll_status`). -/
theorem reservedOpcodeIsRejected : Obligations.ReservedOpcodeIsRejected := fun w s =>
  ⟨_, exec_reserved w s, raiseIll_keepsAllButStatus _ w s, raiseIll_status .reservedOpcode w s⟩

end Sys2Proof.Machine
end

-- SUPPORT. The transport's statements: the one event a step performs (R59), the exact events of a frame (R61 to R64), and a
-- full flush as a receiver reads it (R69).
section

namespace Sys2Proof.Machine

/-! ## One event per step (R59) -/

/-- Outside `IDLE` a step without reset performs the event at `pc`. -/
theorem step_performs {s : State} {e : Event} (hok : s.cfg.ok = true) (hr : s.rst = false) (hp : s.phase ≠ .idle)
    (he : s.ev[s.pc]? = some e) : step s = .next (performEvent s.hostWaits e).advance := by
  rw [step_running hok hr hp, performNext, State.hostWaits_ev, State.hostWaits_pc, he]

theorem State.stepMinDuration_of_event {s : State} {e : Event} (hr : s.rst = false) (hp : s.phase ≠ .idle)
    (he : s.ev[s.pc]? = some e) : s.stepMinDuration = eventMinDuration e := by
  simp [State.stepMinDuration, s.busy_iff.mpr hp, hr, he]

/-- Settles O25: the step performs the event at `pc` and advances (`step_performs`); an event drives the pin it names, and
neither it nor the advance touches another field. -/
theorem oneEventPerStep : Obligations.OneEventPerStep := by
  intro s e hok hr hp he
  refine ⟨_, step_performs hok hr hp he, ?pc, ?phase, ?cs, ?clk, ?din, ?wait, ?fb, ?ev, ?cmd, ?ill, ?cause, ?word, ?cfg,
    State.stepMinDuration_of_event hr hp he⟩
  case cs | clk | din | wait => rintro _ rfl; exact ⟨rfl, rfl, rfl⟩
  all_goals simp

/-! ## The exact events of a frame (R61 to R64) -/

/-- Settles O27: each pair is the bits of its word, each sent as R62 sends a bit (`sendPair_eq_bits`). -/
theorem frameEventsAreExact : Obligations.FrameEventsAreExact := by
  intro ps
  have hpairs : ps.flatMap sendPair = ps.flatMap fun p => (wordBits p.reg p.value).flatMap sendBit :=
    List.flatMap_congr fun p _ => sendPair_eq_bits p
  rw [frame, hpairs]
  rfl

/-! ## A flush read off the wire (R69) -/

/-- The flush's group for row `i` is read as register `i + 1` with the row's bytes in ascending chip index. -/
theorem map_bitsOf_flushGroups (n : Nat) (fb : Memory) : (flushGroups n fb).map bitsOf =
    (List.range 8).map fun i => groupBits n (BitVec.ofNat 8 (i + 1)) fun j => fb.read (fbAddr i j) := by
  rw [flushGroups, List.map_map]
  exact List.map_congr_left fun i _ => bitsOf_regGroup n (rowRegister i) _

/-- A frame of one pair each is read as one word each. -/
theorem map_bitsOf_singles (ps : List WirePair) : (ps.map fun p => [p]).map bitsOf = ps.map pairBits := by
  rw [List.map_map]
  exact List.map_congr_left fun p _ => List.append_nil (pairBits p)

/-- The words of one register group, in ascending chip index. -/
theorem map_pairBits_regGroup (n : Nat) (reg : Byte) (vals : Nat → Byte) :
    (regGroup reg ((List.range n).map vals)).map pairBits = (List.range n).map fun j => wordBits reg (vals j) := by
  rw [regGroup, List.map_map, List.map_map]
  rfl

section
variable {cfg : Config} (fb : Memory) (d : Bool)

theorem wireFrames_writeDisplay_group (hc : cfg.cadence = .group) : wireFrames d (writeDisplay cfg fb) =
    (List.range 8).map fun i => groupBits cfg.n (BitVec.ofNat 8 (i + 1)) fun j => fb.read (fbAddr i j) := by
  rw [writeDisplay, hc, wireFrames_frames, framing, map_bitsOf_flushGroups]

theorem wireFrames_writeDisplay_pair (hc : cfg.cadence = .pair) : wireFrames d (writeDisplay cfg fb) =
    (List.range 8).flatMap fun i => (List.range cfg.n).map fun j =>
      wordBits (BitVec.ofNat 8 (i + 1)) (fb.read (fbAddr i j)) := by
  rw [writeDisplay, hc, wireFrames_frames, framing, List.map_flatMap, flushGroups, List.flatMap_map]
  exact List.flatMap_congr fun i _ => (map_bitsOf_singles _).trans (map_pairBits_regGroup cfg.n (rowRegister i) _)

theorem wireFrames_writeDisplay_flush (hc : cfg.cadence = .flush) : wireFrames d (writeDisplay cfg fb) =
    [(List.range 8).flatMap fun i =>
      groupBits cfg.n (BitVec.ofNat 8 (i + 1)) fun j => fb.read (fbAddr i j)] := by
  rw [writeDisplay, hc, wireFrames_frames, framing, List.map_singleton, bitsOf_flatten, List.flatMap_def,
    map_bitsOf_flushGroups, ← List.flatMap_def]

end

/-- Settles O28: a receiver reads the bits of the frames each cadence makes of the eight register groups
(`wireFrames_frames`). -/
theorem flushOnTheWire : Obligations.FlushOnTheWire := fun _ fb d =>
  ⟨wireFrames_writeDisplay_group fb d, wireFrames_writeDisplay_pair fb d, wireFrames_writeDisplay_flush fb d⟩

end Sys2Proof.Machine
end

-- SUPPORT. The drawing statements: the operand clamps (R73, R74), and what each drawing command does to the framebuffer and
-- leaves alone (R77 to R83).
section

namespace Sys2Proof.Machine

/-! ## Row and column operands (R73) -/

section
variable {v : Byte}

theorem clamp07_of_neg (h : v.toInt < 0) : clamp07 v = 0 := by unfold clamp07; omega

theorem clamp07_of_inRange (h0 : 0 ≤ v.toInt) (h7 : v.toInt ≤ 7) : (clamp07 v : Int) = v.toInt := by
  unfold clamp07; omega

theorem clamp07_of_gt (h : 7 < v.toInt) : clamp07 v = 7 := by unfold clamp07; omega

end

/-- Settles O8: the three sides of the clamp, and that the answer of each command writes `COL` and `ROW` only under it. -/
theorem rowsAndColumnsAreClamped : Obligations.RowsAndColumnsAreClamped := by
  refine ⟨fun v => ⟨clamp07_of_neg, clamp07_of_inRange, clamp07_of_gt⟩, ?_⟩
  intro c c' r r' nth data shift s hc hr
  refine ⟨?turnOn, ?onColumn, ?onRow, ?customColumn, ?customRow⟩
  case turnOn => rw [exec_turnOn, exec_turnOn, hc, hr]
  case onColumn => rw [exec_onColumn, exec_onColumn, hc]
  case onRow => rw [exec_onRow, exec_onRow, hr]
  case customColumn => rw [exec_customColumn, exec_customColumn, hc]
  case customRow => rw [exec_customRow, exec_customRow, hr]

/-! ## The shift (R74) -/

section
variable {s : Byte} (v : Byte)

theorem adjustShift_of_pos (h : 0 < s.toInt) : adjustShift v s = v <<< (min 7 s.toInt).toNat := by
  have hc : clampShift s = min 7 s.toInt := by unfold clampShift; omega
  rw [adjustShift, hc, if_pos (by omega)]

theorem adjustShift_of_neg (h : s.toInt < 0) : adjustShift v s = v >>> (min 7 (-s.toInt)).toNat := by
  have hc : clampShift s = -min 7 (-s.toInt) := by unfold clampShift; omega
  rw [adjustShift, hc, if_neg (by omega), if_pos (by omega), neg_neg]

theorem adjustShift_of_zero (h : s.toInt = 0) : adjustShift v s = v := by
  have hc : clampShift s = 0 := by unfold clampShift; omega
  rw [adjustShift, hc, if_neg (lt_irrefl 0), if_neg (lt_irrefl 0)]

end

/-- Settles O9: by its sign a shift is one logical shift by the clamped amount, whose bits the library knows. -/
theorem shiftClampsAndDiscards : Obligations.ShiftClampsAndDiscards := by
  refine fun v s => ⟨fun hs i hi => ?up, fun hs i _ => ?down, adjustShift_of_zero v⟩
  case up =>
    rw [adjustShift_of_pos v hs, BitVec.getLsbD_shiftLeft, decide_eq_true hi, Bool.true_and, ← decide_not]
    simp only [not_lt]
  case down => rw [adjustShift_of_neg v hs, BitVec.getLsbD_ushiftRight, Nat.add_comm]

/-! ## What a command that draws one cell, or the rows of one chip, does -/

section
variable {i : Instr} {s : State} {k : Nat}

/-- A command that overwrites one cell and starts the flush. -/
theorem exec_writes_cell {r : Nat} {v : Byte} (he : exec i s = .next (s.fbWrite r k v).startFlush) :
    ∃ t, exec i s = .next t ∧ t.fbRead r k = v ∧ (∀ a, a ≠ fbAddr r k → t.fb.read a = s.fb.read a) ∧
      FlushesFrom s t :=
  ⟨_, he, s.fbRead_fbWrite_same r k v, fun _ => s.read_fbWrite_other v, flushesFrom_fbWrite s r k v⟩

/-- A command that changes the eight rows of chip `k`, row `r` by `f r`, and starts the flush. -/
theorem exec_maps_rows {f : Nat → Byte → Byte} (he : exec i s = .next (s.fbMapRows f k).startFlush) :
    ∃ t, exec i s = .next t ∧ (∀ r, r < 8 → t.fbRead r k = f r (s.fbRead r k)) ∧
      (∀ a, (∀ r, r < 8 → a ≠ fbAddr r k) → t.fb.read a = s.fb.read a) ∧ FlushesFrom s t :=
  ⟨_, he, fun _ => s.fbRead_fbMapRows_row f k, fun _ => s.read_fbMapRows_other f, flushesFrom_fbMapRows s f k⟩

end

/-! ## The commands (R77 to R83) -/

/-- Settles O11: `clear 0` clears every chip of the chain, any other `clear` maps the rows of one chip to 0x00. -/
theorem clearZeroesAllOrOneChip : Obligations.ClearZeroesAllOrOneChip := by
  refine ⟨fun s => ?all, fun nth s h => ?one⟩
  case all =>
    exact ⟨_, exec_clear_all s, fun _ _ => s.fbRead_fbClearAll, fun _ => s.read_fbClearAll_other,
      flushesFrom_fbClearAll s⟩
  case one => exact exec_maps_rows (exec_clear_one h s)

/-- Settles O12: the cell becomes the byte with the column's bit alone (`getLsbD_colBit`). -/
theorem turnOnLeavesExactlyOneBit : Obligations.TurnOnLeavesExactlyOneBit := by
  intro col row nth s
  obtain ⟨t, he, hcell, hframe, hflush⟩ := exec_writes_cell (exec_turnOn col row nth s)
  refine ⟨t, he, fun i hi => ?_, hframe, hflush⟩
  rw [hcell, getLsbD_colBit hi]

/-- Settles O13: each row is ORed with the byte that has the column's bit alone. -/
theorem onColumnSetsTheColumnInEveryRow : Obligations.OnColumnSetsTheColumnInEveryRow := by
  intro col nth s
  obtain ⟨t, he, hrows, hframe, hflush⟩ := exec_maps_rows (exec_onColumn col nth s)
  refine ⟨t, he, fun r hr i hi => ?_, hframe, hflush⟩
  rw [hrows r hr, BitVec.getLsbD_or, getLsbD_colBit hi]

/-- Settles O14, by the one cell written. -/
theorem onRowLightsTheRow : Obligations.OnRowLightsTheRow := fun row nth s =>
  exec_writes_cell (exec_onRow row nth s)

/-- Settles O15: a row whose bit in the shifted byte is 1 is ORed with the column's bit, one whose bit is 0 is kept. -/
theorem customColumnAddsThePattern : Obligations.CustomColumnAddsThePattern := by
  intro data col nth shift s
  obtain ⟨t, he, hrows, hframe, hflush⟩ := exec_maps_rows (exec_customColumn data col nth shift s)
  refine ⟨t, he, fun r hr i hi => ?_, hframe, hflush⟩
  rw [hrows r hr]
  cases (adjustShift data shift).getLsbD r with
  | true => simp [getLsbD_colBit hi]
  | false => simp

/-- Settles O16, by the one cell written. -/
theorem customRowOverwritesTheRow : Obligations.CustomRowOverwritesTheRow := fun data row nth shift s =>
  exec_writes_cell (exec_customRow data row nth shift s)

/-- Settles O17: row `i` becomes entry `i` of the list of the eight bytes, whatever it held. -/
theorem symbolStoresItsBytesVerbatim : Obligations.SymbolStoresItsBytesVerbatim := by
  intro b0 b1 b2 b3 b4 b5 b6 b7 nth s
  obtain ⟨t, he, hrows, hframe, hflush⟩ := exec_maps_rows (exec_symbol b0 b1 b2 b3 b4 b5 b6 b7 nth s)
  exact ⟨t, he, ⟨hrows 0 (by decide), hrows 1 (by decide), hrows 2 (by decide), hrows 3 (by decide),
    hrows 4 (by decide), hrows 5 (by decide), hrows 6 (by decide), hrows 7 (by decide)⟩, hframe, hflush⟩

end Sys2Proof.Machine
end

-- SUPPORT. The display test's statement: the broadcasts and pauses `test` starts, and what it leaves alone (R84).
section

namespace Sys2Proof.Machine

/-- Starting a list of events writes `ev`, `pc` and `phase` only. -/
theorem keepsTheRest_startEvents (s : State) (es : List Event) : KeepsTheRest s (s.startEvents es) := by
  constructor <;> simp

/-- R84's events, with register 0x0F as the rule writes it. -/
theorem testEvents_eq_broadcasts (cfg : Config) : testEvents cfg =
    frames cfg.cadence .other [bcast cfg.n 0x0F 0x01] ++ [.wait .pause] ++
      frames cfg.cadence .other [bcast cfg.n 0x0F 0x00] ++ [.wait .pause] := by
  rw [testEvents, regDisplayTest]

/-- Settles O18: `test` only starts its events (`exec_test`), and those are the two broadcasts, each with its pause
(`testEvents_eq_broadcasts`). -/
theorem displayTestLeavesTheFramebuffer : Obligations.DisplayTestLeavesTheFramebuffer := fun s =>
  ⟨_, exec_test s, s.startEvents_fb _, s.startEvents_phase _, s.startEvents_pc _,
    (s.startEvents_ev _).trans (testEvents_eq_broadcasts s.cfg), keepsTheRest_startEvents s _⟩

end Sys2Proof.Machine
end

-- SUPPORT. The statements of the rejections: what the step that takes a rejected word does (R88), and that only reset clears
-- the error status (R89).
section

namespace Sys2Proof.Machine

/-! ## A rejected word is consumed in one step (R88) -/

section
variable {s : State} {w : CmdWord} {h : List HostMove}

theorem rst_of_word (hh : s.host = .offer w :: h ∨ s.host = .hold w :: h) : s.rst = false := by
  rcases hh with hh | hh <;> rw [State.rst, hh]

theorem offered_of_word (hh : s.host = .offer w :: h ∨ s.host = .hold w :: h) : s.offered = some w := by
  rcases hh with hh | hh <;> rw [State.offered, hh]

/-- In `IDLE` the word on the port is taken, held or not, and accepted with the host's later moves left. -/
theorem step_takes_word (hok : s.cfg.ok = true) (hp : s.phase = .idle)
    (hh : s.host = .offer w :: h ∨ s.host = .hold w :: h) : step s = accept w { s with host := h } := by
  have htail : s.host.tail = h := by rcases hh with hh | hh <;> rw [hh, List.tail_cons]
  rw [step_idle hok (rst_of_word hh) hp, idleStep, offered_of_word hh, ← htail]
  rfl

end

/-- Both kinds of word that spell no command end in the one rejection. -/
theorem accept_of_rejects {w : CmdWord} {c : IllCause} (hr : Rejects w c) (s : State) :
    accept w s = .next (raiseIll c w { s with cmd := w }) := by
  rcases hr with ⟨hd, rfl⟩ | ⟨hd, rfl⟩
  · rw [accept_of_instr hd, exec_reserved]
  · exact accept_of_rejected hd s

/-- Settles O21: the step takes the word (`step_takes_word`), acceptance rejects it (`accept_of_rejects`), and a rejection
leaves everything but the error status (`raiseIll_keepsAllButStatus`), which it sets by `raiseIll_status`. -/
theorem rejectedWordHasNoOtherEffect : Obligations.RejectedWordHasNoOtherEffect := by
  intro s w h c hok hp hh hr
  have hstep := (step_takes_word hok hp hh).trans (accept_of_rejects hr _)
  have kept := raiseIll_keepsAllButStatus c w { s with cmd := w, host := h }
  exact ⟨_, hstep, kept.fb, kept.cs, kept.clk, kept.din, kept.ev, kept.pc, kept.phase.trans hp, kept.chain, kept.cfg,
    kept.free, kept.host, raiseIll_status c w { s with cmd := w, host := h }⟩

/-! ## Only reset clears the error status (R89) -/

/-- A rejection after the first does nothing. -/
theorem raiseIll_of_ill {s : State} (hill : s.ill = true) (c : IllCause) (w : CmdWord) : raiseIll c w s = s := by
  rw [raiseIll, if_pos hill]

/-- No acceptance, whether it draws, starts `test` or rejects, changes a rejection already recorded. -/
theorem accept_keeps_recorded {w : CmdWord} {s t : State} (hn : 1 ≤ s.cfg.n) (hill : s.ill = true)
    (h : accept w s = .next t) : t.ill = s.ill ∧ t.illCause = s.illCause ∧ t.illWord = s.illWord := by
  rcases accept_next_cases hn h with ⟨_, _, _, _, rfl, _, _⟩ | ⟨_, rfl⟩ | ⟨_, _, rfl⟩
  · exact ⟨rfl, rfl, rfl⟩
  · exact ⟨rfl, rfl, rfl⟩
  · rw [raiseIll_of_ill (s := { s with cmd := w }) hill]
    exact ⟨rfl, rfl, rfl⟩

/-- Settles O22: of the steps without reset only acceptance can reach the error status, and it keeps a recorded rejection
(`accept_keeps_recorded`). -/
theorem errorStatusIsSticky : Obligations.ErrorStatusIsSticky := by
  intro s t h hr hill
  obtain ⟨-, hok, hreset | hquiet | htaken | hevent⟩ := step_cases h
  · exact absurd hreset.1 (by simp [hr])
  · obtain ⟨-, -, -, rfl⟩ := hquiet
    exact ⟨hill, rfl, rfl⟩
  · obtain ⟨-, -, w, -, ha⟩ := htaken
    have hn : 1 ≤ s.cfg.n := ((cfg_ok_iff _).mp (hok hr)).1
    obtain ⟨hi, hc, hw⟩ := accept_keeps_recorded (s := s.hostTaken) hn hill ha
    exact ⟨hi.trans hill, hc, hw⟩
  · obtain ⟨-, -, e, -, rfl⟩ := hevent
    simp [hill]

end Sys2Proof.Machine
end

-- SUPPORT. The statement of reset: a step with `rst = 1` overrides every other rule (R98).
section

namespace Sys2Proof.Machine

section
variable {s : State} {c : Config} {h : List HostMove}

theorem rst_of_host_reset (hh : s.host = .reset c :: h) : s.rst = true := by
  rw [State.rst, hh]

/-- A reset move with admitted parameters, whatever the phase, the pins and the event list. -/
theorem step_of_host_reset (hh : s.host = .reset c :: h) (hok : c.ok = true) :
    step s = .next (resetBlock c s.hostWaits) := by
  have hnow : s.cfgNow = c := cfgNow_of_host_reset hh
  have hstep := step_reset (s := s) (by rwa [hnow]) (rst_of_host_reset hh)
  rwa [hnow] at hstep

/-- R22: no word is taken in a step with `rst = 1`. -/
theorem State.cmdReady_of_rst (hr : s.rst = true) : s.cmdReady = false := by
  simp [State.cmdReady, hr]

end

/-- Settles O35: the step is `resetBlock` of the parameters at its inputs (`step_of_host_reset`), whose fields do not depend on
the state it meets; its framebuffer lists no cell. -/
theorem resetOverridesEverything : Obligations.ResetOverridesEverything := by
  intro s c h hh hok
  have hfb : ∀ a, (resetBlock c s.hostWaits).fb.read a = 0x00 := Memory.read_nil
  exact ⟨State.cmdReady_of_rst (rst_of_host_reset hh), _, step_of_host_reset hh hok, hfb, State.resetBlock_cs _ _,
    State.resetBlock_clk _ _, State.resetBlock_din _ _, State.resetBlock_phase _ _, State.resetBlock_ev _ _,
    State.resetBlock_pc _ _, State.resetBlock_ill _ _, State.resetBlock_illCause _ _, State.resetBlock_illWord _ _⟩

end Sys2Proof.Machine
end

-- SUPPORT. The statements of the encoding: decoding what is encoded (R47 to R51), the rows of the opcode table by mask and
-- match, the operands of the assembler (R56, R57), and the chip selector (R75).
section

namespace Sys2Proof.Machine

/-! ## Decoding an encoded command -/

section
variable (op : BitVec 4) (nth col row data shift : Byte) (sym : BitVec 64)

@[simp] theorem fieldOP_assembleFields : fieldOP (assembleFields op nth col row data shift sym) = op :=
  (fields_assembleFields ..).1

@[simp] theorem fieldNTH_assembleFields : fieldNTH (assembleFields op nth col row data shift sym) = nth := by
  obtain ⟨-, -, h, -⟩ := fields_assembleFields op nth col row data shift sym
  exact h

@[simp] theorem fieldCOL_assembleFields : fieldCOL (assembleFields op nth col row data shift sym) = col := by
  obtain ⟨-, -, -, h, -⟩ := fields_assembleFields op nth col row data shift sym
  exact h

@[simp] theorem fieldROW_assembleFields : fieldROW (assembleFields op nth col row data shift sym) = row := by
  obtain ⟨-, -, -, -, h, -⟩ := fields_assembleFields op nth col row data shift sym
  exact h

@[simp] theorem fieldDATA_assembleFields : fieldDATA (assembleFields op nth col row data shift sym) = data := by
  obtain ⟨-, -, -, -, -, h, -⟩ := fields_assembleFields op nth col row data shift sym
  exact h

@[simp] theorem fieldSHIFT_assembleFields : fieldSHIFT (assembleFields op nth col row data shift sym) = shift := by
  obtain ⟨-, -, -, -, -, -, h, -⟩ := fields_assembleFields op nth col row data shift sym
  exact h

end

/-- Settles O1: an assembled word goes to the opcode map (`decode_assembleFields`), where its opcode selects the row, and
the operand fields read back; the reserved row's word is its own encoding. -/
theorem decodeEncodeRoundTrip : Obligations.DecodeEncodeRoundTrip := by
  intro i hwf
  cases i with
  | clear nth =>
    rw [encode, decode_assembleFields rfl, decodeOp_clear (fieldOP_assembleFields ..), fieldNTH_assembleFields]
  | turnOn col row nth =>
    rw [encode, decode_assembleFields rfl, decodeOp_turnOn (fieldOP_assembleFields ..), fieldCOL_assembleFields,
      fieldROW_assembleFields, fieldNTH_assembleFields]
  | onColumn col nth =>
    rw [encode, decode_assembleFields rfl, decodeOp_onColumn (fieldOP_assembleFields ..), fieldCOL_assembleFields,
      fieldNTH_assembleFields]
  | onRow row nth =>
    rw [encode, decode_assembleFields rfl, decodeOp_onRow (fieldOP_assembleFields ..), fieldROW_assembleFields,
      fieldNTH_assembleFields]
  | customColumn data col nth shift =>
    rw [encode, decode_assembleFields rfl, decodeOp_customColumn (fieldOP_assembleFields ..),
      fieldDATA_assembleFields, fieldCOL_assembleFields, fieldNTH_assembleFields, fieldSHIFT_assembleFields]
  | customRow data row nth shift =>
    rw [encode, decode_assembleFields rfl, decodeOp_customRow (fieldOP_assembleFields ..),
      fieldDATA_assembleFields, fieldROW_assembleFields, fieldNTH_assembleFields, fieldSHIFT_assembleFields]
  | symbol b0 b1 b2 b3 b4 b5 b6 b7 nth =>
    obtain ⟨h0, h1, h2, h3, h4, h5, h6, h7⟩ := bytes_packSym b0 b1 b2 b3 b4 b5 b6 b7
    simp only [encode, decode_assembleFields (op := 0x6) rfl, decodeOp_symbol (fieldOP_assembleFields ..),
      fieldNTH_assembleFields, fieldSYM_assembleFields, h0, h1, h2, h3, h4, h5, h6, h7]
  | test => rw [encode, decode_assembleFields rfl, decodeOp_test (fieldOP_assembleFields ..)]
  | reserved w => exact decode_of_reservedOpcode hwf

/-! ## The rows of the opcode table -/

/-- The mask of the rows with an opcode in 0x0..0x7: `OP` and the reserved fields. -/
def rowMask : CmdWord := 0x0000000000000000FFFF0000000000FF#128

/-- A slice that a mask covers is the slice of the match. -/
theorem extractLsb'_of_masked {w mask m : CmdWord} {a n : Nat} (h : w &&& mask = m)
    (hm : mask.extractLsb' a n = BitVec.allOnes n) : w.extractLsb' a n = m.extractLsb' a n := by
  rw [← h, BitVec.extractLsb'_and, hm, BitVec.and_allOnes]

/-- A word that agrees with a row's match under the row mask is read by the opcode map, as the match's opcode. -/
theorem decode_of_rowMask {w m : CmdWord} (h : w &&& rowMask = m) (h3 : (fieldOP m).getLsbD 3 = false)
    (h0 : fieldRSV0 m = 0) (h1 : fieldRSV1 m = 0) : decode w = .instr (decodeOp w) ∧ fieldOP w = fieldOP m := by
  have hop : fieldOP w = fieldOP m := extractLsb'_of_masked h (by decide)
  have hrsv0 : fieldRSV0 w = fieldRSV0 m := extractLsb'_of_masked h (by decide)
  have hrsv1 : fieldRSV1 w = fieldRSV1 m := extractLsb'_of_masked h (by decide)
  exact ⟨decode_of_legal (by rw [getLsbD_three, hop, h3]) (hrsv0.trans h0) (hrsv1.trans h1), hop⟩

/-- The mask of the last clause covers only bits of the reserved fields. -/
theorem reservedMask_bits : ∀ i < 128, (0x0000000000000000FFFF0000000000F0#128).getLsbD i = true →
    4 ≤ i ∧ i < 8 ∨ 48 ≤ i ∧ i < 64 := by decide

/-- A word with a bit set under the mask of the reserved fields has one of them not 0. -/
theorem reservedField_of_mask {w : CmdWord} (h : w &&& 0x0000000000000000FFFF0000000000F0#128 ≠ 0#128) :
    fieldRSV0 w ≠ 0 ∨ fieldRSV1 w ≠ 0 := by
  by_contra hn
  obtain ⟨h0, h1⟩ := not_or.mp hn
  rw [not_not] at h0 h1
  refine h (BitVec.eq_of_getLsbD_eq fun i hi => ?_)
  rw [BitVec.getLsbD_and, BitVec.getLsbD_zero, Bool.and_eq_false_iff, or_iff_not_imp_right, Bool.not_eq_false]
  intro hb
  rcases reservedMask_bits i hi hb with hi | hi
  · have hz : (fieldRSV0 w).getLsbD (i - 4) = false := by rw [h0]; exact BitVec.getLsbD_zero
    rw [fieldRSV0, BitVec.getLsbD_extractLsb', Nat.add_sub_cancel' hi.1] at hz
    simpa [show i - 4 < 4 by omega] using hz
  · have hz : (fieldRSV1 w).getLsbD (i - 48) = false := by rw [h1]; exact BitVec.getLsbD_zero
    rw [fieldRSV1, BitVec.getLsbD_extractLsb', Nat.add_sub_cancel' hi.1] at hz
    simpa [show i - 48 < 16 by omega] using hz

/-- Bit 3 alone, under its mask. -/
theorem getLsbD_three_of_mask {w m : CmdWord} (h : w &&& 0x8#128 = m) : w.getLsbD 3 = m.getLsbD 3 := by
  rw [← h, BitVec.getLsbD_and, show (0x8#128).getLsbD 3 = true from rfl, Bool.and_true]

/-- Settles O3: the row mask covers `OP` and the reserved fields, so a word that agrees with the match has the match's
opcode and is read by the map (`decode_of_rowMask`); a word on no row has a reserved field not 0. -/
theorem tableRowsSelectTheirCommand : Obligations.TableRowsSelectTheirCommand := by
  intro w
  have selects {m : CmdWord} {i : Instr} (h : w &&& rowMask = m) (h3 : (fieldOP m).getLsbD 3 = false)
      (h0 : fieldRSV0 m = 0) (h1 : fieldRSV1 m = 0) (hi : fieldOP w = fieldOP m → decodeOp w = i) :
      decode w = .instr i := by
    obtain ⟨hd, hop⟩ := decode_of_rowMask h h3 h0 h1
    rw [hd, hi hop]
  exact ⟨fun h => ⟨_, selects h rfl rfl rfl decodeOp_clear⟩, fun h => ⟨_, _, _, selects h rfl rfl rfl decodeOp_turnOn⟩,
    fun h => ⟨_, _, selects h rfl rfl rfl decodeOp_onColumn⟩, fun h => ⟨_, _, selects h rfl rfl rfl decodeOp_onRow⟩,
    fun h => ⟨_, _, _, _, selects h rfl rfl rfl decodeOp_customColumn⟩,
    fun h => ⟨_, _, _, _, selects h rfl rfl rfl decodeOp_customRow⟩,
    fun h => ⟨_, _, _, _, _, _, _, _, _, selects h rfl rfl rfl decodeOp_symbol⟩,
    fun h => selects h rfl rfl rfl decodeOp_test, fun h => decode_of_reservedOpcode (getLsbD_three_of_mask h),
    fun h3 hr => decode_of_reservedField (getLsbD_three_of_mask h3) (reservedField_of_mask hr)⟩

/-- Settles O5, by running the decoder on the ten words. -/
theorem writtenOutWordsDecode : Obligations.WrittenOutWordsDecode := by
  unfold Obligations.WrittenOutWordsDecode
  decide

/-! ## The assembler (R56, R57) -/

/-- An answer is given exactly where `P` holds, and then one of which `R` holds. -/
def AnsweredExactly {α : Type} (P : Prop) (o : Option α) (R : α → Prop) : Prop :=
  (P → ∃ a, o = some a ∧ R a) ∧ (¬P → o = none)

section
variable {P Q T : Prop} {o : Option Byte} {R : Byte → Prop}

/-- Two operands read one after the other are answered exactly where both are. -/
theorem AnsweredExactly.bind {f : Byte → Option Instr} {S : Byte → Instr → Prop} (ho : AnsweredExactly P o R)
    (hf : ∀ b, AnsweredExactly Q (f b) (S b)) : AnsweredExactly (P ∧ Q) (o.bind f) fun i => ∃ b, R b ∧ S b i := by
  constructor
  · rintro ⟨hp, hq⟩
    obtain ⟨b, rfl, hb⟩ := ho.1 hp
    obtain ⟨i, hi, hs⟩ := (hf b).1 hq
    exact ⟨i, hi, b, hb, hs⟩
  · intro hn
    by_cases hp : P
    · obtain ⟨b, rfl, -⟩ := ho.1 hp
      exact (hf b).2 fun hq => hn ⟨hp, hq⟩
    · rw [ho.2 hp, Option.bind_none]

/-- The last operand completes the command. -/
theorem AnsweredExactly.last (ho : AnsweredExactly P o R) (g : Byte → Instr) :
    AnsweredExactly P (o.bind fun b => some (g b)) fun i => ∃ b, R b ∧ i = g b := by
  refine ⟨fun hp => ?_, fun hn => by rw [ho.2 hn, Option.bind_none]⟩
  obtain ⟨b, rfl, hb⟩ := ho.1 hp
  exact ⟨g b, rfl, b, hb, rfl⟩

/-- The form in which the assembler's statement says it. -/
theorem AnsweredExactly.ite [Decidable P] {x : Option Instr} {S : Instr → Prop} (h : AnsweredExactly P x S)
    (ht : ∀ i, S i → x = some i → T) : if P then T else x = none := by
  split
  · next hp =>
    obtain ⟨i, hi, hs⟩ := h.1 hp
    exact ht i hs hi
  · next hn => exact h.2 hn

end

/-- R56: an unsigned operand is read exactly in its range, and reads back. -/
theorem asmU8_answered (x : Int) : AnsweredExactly (isU8 x) (asmU8 x) fun b => (b.toNat : Int) = x := by
  have back (h : isU8 x) : ((BitVec.ofInt 8 x).toNat : Int) = x := by
    rw [BitVec.toNat_ofInt]
    omega
  exact ⟨fun h => ⟨_, if_pos h, back h⟩, fun h => if_neg h⟩

/-- R56: a signed operand is read exactly in its range, and reads back. -/
theorem asmS8_answered (x : Int) : AnsweredExactly (isS8 x) (asmS8 x) fun b => b.toInt = x := by
  have back (h : isS8 x) : (BitVec.ofInt 8 x).toInt = x := by
    rw [BitVec.toInt_ofInt, Int.bmod_eq_of_le] <;> omega
  exact ⟨fun h => ⟨_, if_pos h, back h⟩, fun h => if_neg h⟩

/-- Settles O6: every full form reads its operands one after the other, each exactly in its range (`asmU8_answered`,
`asmS8_answered`), so all of it is answered exactly where every operand is in range (`AnsweredExactly.bind`). -/
theorem assembledOperandsReadBack : Obligations.AssembledOperandsReadBack := by
  refine ⟨fun nth => ?clear, fun col row nth => ?turnOn, fun col nth => ?onColumn, fun row nth => ?onRow,
    fun data col nth shift => ?customColumn, fun data row nth shift => ?customRow,
    fun x0 x1 x2 x3 x4 x5 x6 x7 nth => ?symbol, rfl⟩
  case clear =>
    refine ((asmU8_answered nth).last .clear).ite ?_
    rintro _ ⟨n, hn, rfl⟩ e
    exact ⟨n, hn, e⟩
  case turnOn =>
    refine ((asmS8_answered col).bind fun c => (asmS8_answered row).bind fun r =>
      (asmU8_answered nth).last (.turnOn c r)).ite ?_
    rintro _ ⟨c, hc, r, hr, n, hn, rfl⟩ e
    exact ⟨c, r, n, hc, hr, hn, e⟩
  case onColumn =>
    refine ((asmS8_answered col).bind fun c => (asmU8_answered nth).last (.onColumn c)).ite ?_
    rintro _ ⟨c, hc, n, hn, rfl⟩ e
    exact ⟨c, n, hc, hn, e⟩
  case onRow =>
    refine ((asmS8_answered row).bind fun r => (asmU8_answered nth).last (.onRow r)).ite ?_
    rintro _ ⟨r, hr, n, hn, rfl⟩ e
    exact ⟨r, n, hr, hn, e⟩
  case customColumn =>
    refine ((asmU8_answered data).bind fun d => (asmS8_answered col).bind fun c => (asmU8_answered nth).bind fun n =>
      (asmS8_answered shift).last (.customColumn d c n)).ite ?_
    rintro _ ⟨d, hd, c, hc, n, hn, h, hh, rfl⟩ e
    exact ⟨d, c, n, h, hd, hc, hn, hh, e⟩
  case customRow =>
    refine ((asmU8_answered data).bind fun d => (asmS8_answered row).bind fun r => (asmU8_answered nth).bind fun n =>
      (asmS8_answered shift).last (.customRow d r n)).ite ?_
    rintro _ ⟨d, hd, r, hr, n, hn, h, hh, rfl⟩ e
    exact ⟨d, r, n, h, hd, hr, hn, hh, e⟩
  case symbol =>
    refine ((asmU8_answered x0).bind fun b0 => (asmU8_answered x1).bind fun b1 => (asmU8_answered x2).bind fun b2 =>
      (asmU8_answered x3).bind fun b3 => (asmU8_answered x4).bind fun b4 => (asmU8_answered x5).bind fun b5 =>
      (asmU8_answered x6).bind fun b6 => (asmU8_answered x7).bind fun b7 =>
      (asmU8_answered nth).last (.symbol b0 b1 b2 b3 b4 b5 b6 b7)).ite ?_
    rintro _ ⟨b0, h0, b1, h1, b2, h2, b3, h3, b4, h4, b5, h5, b6, h6, b7, h7, n, hn, rfl⟩ e
    exact ⟨b0, b1, b2, b3, b4, b5, b6, b7, n, h0, h1, h2, h3, h4, h5, h6, h7, hn, e⟩

/-- R57: the value of an omitted operand, as either reader reads it. -/
theorem asm_zero : asmU8 0 = some 0 ∧ asmS8 0 = some 0 := by decide

/-- Settles O7: an operand written as 0 is read as the byte 0 (`asm_zero`), which is what each short form puts in its
place. -/
theorem omittedOperandsAreZero : Obligations.OmittedOperandsAreZero := by
  obtain ⟨hu, hs⟩ := asm_zero
  refine ⟨?_, ?_, ?_, ?_, ?_, ?_, ?_, ?_, ?_⟩
  all_goals intros; simp [assemble, hu, hs]

/-! ## The chip selector (R75) -/

theorem chipIndex_of_ne_zero (n : Nat) {nth : Byte} (h : 1 ≤ nth.toNat) :
    chipIndex n nth = min (nth.toNat - 1) (n - 1) := by
  refine if_neg ?_
  rintro rfl
  exact absurd h (by decide)

/-- Settles O10: a selector from 1 on counts from 0 up to the last chip (`chipIndex_of_ne_zero`), and every index is in the
chain (`chipIndex_lt`). -/
theorem chipSelectorStaysInTheChain : Obligations.ChipSelectorStaysInTheChain := by
  intro n nth hn
  refine ⟨if_pos rfl, fun h1 hle => ?_, fun hlt => ?_, chipIndex_lt hn nth⟩
  · rw [chipIndex_of_ne_zero n h1]
    omega
  · rw [chipIndex_of_ne_zero n (by omega)]
    omega

end Sys2Proof.Machine
end

-- SUPPORT. The invariants of every step: the sequencer and the framing (R21, R59, R70), the framebuffer (R16), the error
-- status (R23), the chain (R44) and the parameters (R29), each at reset and over every step.
section

namespace Sys2Proof.Machine

/-! ## The sequencer and the framing -/

/-- One event performed takes the discipline of the list to that of the rest. -/
theorem framed_performEvent {s : State} {e : Event} {es : List Event} (h : framed s.cs s.clk (e :: es) = true) :
    framed (performEvent s e).cs (performEvent s e).clk es = true := by
  cases e with
  | cs l =>
    simp only [framed, Bool.and_eq_true] at h
    exact h.2
  | clk l =>
    simp only [framed, Bool.and_eq_true] at h
    exact h.2
  | din | wait => exact h

/-- The sequencer invariant reads the phase, the events left and the levels of CS and CLK. -/
theorem SequencerInv.congr {s t : State} (h : SequencerInv s) (hphase : t.phase = s.phase) (hpc : t.pc = s.pc)
    (hev : t.ev = s.ev) (hcs : t.cs = s.cs) (hclk : t.clk = s.clk) : SequencerInv t := by
  obtain ⟨hrun, hfin, hdis⟩ := h
  constructor
  · rwa [hphase, hpc, hev]
  · rwa [hphase, hpc, hev]
  · rwa [hcs, hclk, hpc, hev]

/-- A list that keeps the discipline, started from pins at rest. -/
theorem sequencerInv_of_start {t : State} (hphase : t.phase ≠ .idle) (hpc : t.pc = 0) (hcs : t.cs = true)
    (hclk : t.clk = false) (hne : 0 < t.ev.length) (hf : framed true false t.ev = true) : SequencerInv t where
  running _ := by rwa [hpc]
  finished hp := absurd hp hphase
  discipline := by rwa [hcs, hclk, hpc, List.drop_zero]

/-- The step of R59: the event at `pc` performed, the position moved on, the phase `IDLE` after the last. -/
theorem SequencerInv.advance {s : State} {e : Event} (h : SequencerInv s) (hp : s.phase ≠ .idle)
    (he : s.ev[s.pc]? = some e) : SequencerInv (performEvent s e).advance := by
  obtain ⟨hlt, hget⟩ := List.getElem?_eq_some_iff.mp he
  have hdrop : s.ev.drop s.pc = e :: s.ev.drop (s.pc + 1) := by rw [List.drop_eq_getElem_cons hlt, hget]
  have hphase : (performEvent s e).advance.phase = .idle ↔ s.pc + 1 = s.ev.length := by
    by_cases hl : s.pc + 1 = s.ev.length <;> simp [hl, hp]
  refine ⟨fun hr => ?_, fun hi => ?_, ?_⟩
  · have hne : s.pc + 1 ≠ s.ev.length := fun hl => hr (hphase.mpr hl)
    simp only [State.advance_pc, State.advance_ev, State.performEvent_pc, State.performEvent_ev]
    omega
  · simpa using hphase.mp hi
  · have hd := h.discipline
    rw [hdrop] at hd
    simpa using framed_performEvent hd

/-- R26, R76, R84, R88: whatever an acceptance from rest starts keeps the discipline, and a rejection starts nothing. -/
theorem SequencerInv.accept {w : CmdWord} {s t : State} (h : SequencerInv s) (hp : s.phase = .idle)
    (hn : 1 ≤ s.cfg.n) (ha : accept w s = .next t) : SequencerInv t := by
  obtain ⟨-, hcs, hclk⟩ := h.idle hp
  rcases accept_next_cases hn ha with ⟨_, fb, _, _, rfl, _, _⟩ | ⟨_, rfl⟩ | ⟨c, _, rfl⟩
  · exact sequencerInv_of_start (by simp) rfl hcs hclk (writeDisplay_ne_nil s.cfg fb hn)
      (framed_writeDisplay s.cfg fb)
  · exact sequencerInv_of_start (by simp) rfl hcs hclk (testEvents_ne_nil s.cfg) (framed_testEvents s.cfg)
  · exact h.congr (by simp) (by simp) (by simp) (by simp) (by simp)

theorem sequencerInv_resetBlock (c : Config) (hok : c.ok = true) (s : State) : SequencerInv (resetBlock c s) :=
  sequencerInv_of_start (by simp) rfl rfl rfl (resetSeq_ne_nil c ((cfg_ok_iff c).mp hok).1) (framed_resetSeq c)

/-- Settles O42, by the four kinds of step: reset starts its sequence, an idle step without a word changes nothing,
acceptance starts a list from rest (`SequencerInv.accept`), and an event moves on (`SequencerInv.advance`). -/
theorem everyStepKeepsTheFraming : Obligations.EveryStepKeepsTheFraming := by
  intro s t h hstep
  obtain ⟨hnow, hok, hreset | hquiet | htaken | hevent⟩ := step_cases hstep
  · obtain ⟨-, rfl⟩ := hreset
    exact sequencerInv_resetBlock _ hnow _
  · obtain ⟨-, -, -, rfl⟩ := hquiet
    exact h.congr rfl rfl rfl rfl rfl
  · obtain ⟨hr, hp, w, -, ha⟩ := htaken
    have htk : SequencerInv s.hostTaken := h.congr rfl rfl rfl rfl rfl
    exact htk.accept hp ((cfg_ok_iff _).mp (hok hr)).1 ha
  · obtain ⟨-, hp, e, he, rfl⟩ := hevent
    have hw : SequencerInv s.hostWaits := h.congr rfl rfl rfl rfl rfl
    exact hw.advance hp he

/-- Settles O43: the reset sequence is not empty and keeps the discipline from rest. -/
theorem resetMeetsTheFraming : Obligations.ResetMeetsTheFraming := fun cfg hok =>
  sequencerInv_of_start (by simp [State.resetOf]) rfl rfl rfl (resetSeq_ne_nil cfg ((cfg_ok_iff cfg).mp hok).1)
    (framed_resetSeq cfg)

/-- Settles O44: reset and `IDLE` always answer, and outside `IDLE` the invariant leaves an event to perform. -/
theorem noStepFaults : Obligations.NoStepFaults := by
  intro s h hok
  cases hr : s.rst with
  | true => exact ⟨_, step_reset hok hr⟩
  | false =>
    rw [cfgNow_of_rst hr] at hok
    by_cases hp : s.phase = .idle
    · rw [step_idle hok hr hp]
      exact idleStep_answers s ((cfg_ok_iff _).mp hok).1
    · exact ⟨_, step_performs hok hr hp (List.getElem?_eq_getElem (h.running hp))⟩

/-! ## What acceptance leaves alone -/

/-- No acceptance touches the chips or the parameters. -/
theorem accept_keeps_chain {w : CmdWord} {s t : State} (hn : 1 ≤ s.cfg.n) (ha : accept w s = .next t) :
    t.chain = s.chain ∧ t.cfg = s.cfg := by
  rcases accept_next_cases hn ha with ⟨_, _, _, _, rfl, _, _⟩ | ⟨_, rfl⟩ | ⟨_, _, rfl⟩ <;> simp

/-- Settles O38: a reset takes the parameters of its move, and neither an acceptance nor an event touches them. -/
theorem parametersAreSampledAtReset : Obligations.ParametersAreSampledAtReset := by
  intro s t hstep
  obtain ⟨-, hok, hreset | hquiet | htaken | hevent⟩ := step_cases hstep
  · obtain ⟨hr, rfl⟩ := hreset
    exact ⟨by simp [hr], fun c h hh => cfgNow_of_host_reset hh⟩
  · obtain ⟨hr, -, -, rfl⟩ := hquiet
    exact ⟨fun _ => rfl, fun c h hh => by simp [rst_of_host_reset hh] at hr⟩
  · obtain ⟨hr, -, w, -, ha⟩ := htaken
    have hkeep := accept_keeps_chain (s := s.hostTaken) ((cfg_ok_iff _).mp (hok hr)).1 ha
    exact ⟨fun _ => hkeep.2, fun c h hh => by simp [rst_of_host_reset hh] at hr⟩
  · obtain ⟨hr, -, e, -, rfl⟩ := hevent
    exact ⟨fun _ => by simp, fun c h hh => by simp [rst_of_host_reset hh] at hr⟩

/-! ## The framebuffer (R16) -/

/-- What a step can do to the framebuffer: clear it at reset, leave it, or draw in it by an accepted command, which keeps
the parameters, the canonical form and the range of the cells. -/
theorem step_fb_cases {s t : State} (h : step s = .next t) :
    (s.rst = true ∧ t.fb = []) ∨ (t.fb = s.fb ∧ t.cfg = s.cfg) ∨
    (s.phase = .idle ∧ (∃ w i, s.offered = some w ∧ decode w = .instr i ∧ Draws i) ∧ t.cfg = s.cfg ∧
      (s.fb.wf → t.fb.wf) ∧ ∀ c ∈ t.fb, c ∈ s.fb ∨ ∃ r j, r < 8 ∧ j < s.cfg.n ∧ c.1 = fbAddr r j) := by
  obtain ⟨-, hok, hreset | hquiet | htaken | hevent⟩ := step_cases h
  · obtain ⟨hr, rfl⟩ := hreset
    exact .inl ⟨hr, rfl⟩
  · obtain ⟨-, -, -, rfl⟩ := hquiet
    exact .inr (.inl ⟨rfl, rfl⟩)
  · obtain ⟨hr, hp, w, ho, ha⟩ := htaken
    have hn : 1 ≤ s.hostTaken.cfg.n := ((cfg_ok_iff _).mp (hok hr)).1
    rcases accept_next_cases hn ha with ⟨i, fb, hd, hi, rfl, hwf, hcells⟩ | ⟨_, rfl⟩ | ⟨_, _, rfl⟩
    · exact .inr (.inr ⟨hp, ⟨w, i, ho, hd, hi⟩, rfl, hwf, hcells⟩)
    · exact .inr (.inl ⟨rfl, rfl⟩)
    · exact .inr (.inl (by simp))
  · obtain ⟨-, -, e, -, rfl⟩ := hevent
    exact .inr (.inl (by simp))

theorem framebufferInv_nil {t : State} (h : t.fb = []) : FramebufferInv t := by
  rw [FramebufferInv, h]
  exact ⟨Memory.nil_wf, by simp⟩

/-- Settles O45, by what a step can do to the framebuffer (`step_fb_cases`). -/
theorem everyStepKeepsTheFramebuffer : Obligations.EveryStepKeepsTheFramebuffer := by
  intro s t hinv hstep
  obtain ⟨hwf, hcells⟩ := hinv
  rcases step_fb_cases hstep with ⟨-, hnil⟩ | ⟨hfb, hcfg⟩ | ⟨-, -, hcfg, hwf', hcells'⟩
  · exact framebufferInv_nil hnil
  · rw [FramebufferInv, hfb, hcfg]
    exact ⟨hwf, hcells⟩
  · rw [FramebufferInv, hcfg]
    exact ⟨hwf' hwf, fun c hc => (hcells' c hc).elim (hcells c) id⟩

/-- Settles O49, by what a step can do to the framebuffer (`step_fb_cases`). -/
theorem framebufferWrittenOnlyByCommands : Obligations.FramebufferWrittenOnlyByCommands := by
  intro s t hstep hne
  rcases step_fb_cases hstep with ⟨hr, -⟩ | ⟨hfb, -⟩ | ⟨hp, ⟨w, i, ho, hd, htest, hres⟩, -⟩
  · exact .inl hr
  · exact absurd hfb hne
  · exact .inr ⟨hp, w, i, ho, hd, htest, hres⟩

/-! ## The error status (R23) -/

/-- The status invariant reads the error status alone. -/
theorem StatusInv.congr {s t : State} (h : StatusInv s) (hill : t.ill = s.ill) (hc : t.illCause = s.illCause)
    (hw : t.illWord = s.illWord) : StatusInv t := by
  rwa [StatusInv, hill, hc, hw]

theorem statusInv_of_clear {t : State} (hill : t.ill = false) (hc : t.illCause = 0b00) (hw : t.illWord = 0) :
    StatusInv t := ⟨fun _ => ⟨hc, hw⟩, fun h => absurd h (by simp [hill])⟩

/-- A word that spells no command is recorded with the cause its decoding gives. -/
theorem StatusInv.raiseIll {s : State} {w : CmdWord} {c : IllCause} (h : StatusInv s) (hr : Rejects w c) :
    StatusInv (raiseIll c w s) := by
  obtain ⟨hset, hfirst, hlater⟩ := raiseIll_status c w s
  cases hill : s.ill with
  | true =>
    obtain ⟨hcause, hword⟩ := hlater hill
    exact h.congr (hset.trans hill.symm) hcause hword
  | false =>
    obtain ⟨hcause, hword⟩ := hfirst hill
    refine ⟨fun hf => absurd hf (by simp [hset]), fun _ => ?_⟩
    rw [hcause, hword]
    rcases hr with ⟨hd, rfl⟩ | ⟨hd, rfl⟩
    · exact .inl ⟨rfl, hd⟩
    · exact .inr ⟨rfl, hd⟩

theorem StatusInv.accept {w : CmdWord} {s t : State} (h : StatusInv s) (hn : 1 ≤ s.cfg.n)
    (ha : accept w s = .next t) : StatusInv t := by
  rcases accept_next_cases hn ha with ⟨_, _, _, _, rfl, _, _⟩ | ⟨_, rfl⟩ | ⟨c, hr, rfl⟩
  · exact h.congr rfl rfl rfl
  · exact h.congr rfl rfl rfl
  · exact StatusInv.raiseIll (s := { s with cmd := w }) (h.congr rfl rfl rfl) hr

/-- Settles O46: reset clears the status, and of the other steps only acceptance records in it (`StatusInv.accept`). -/
theorem everyStepKeepsTheStatus : Obligations.EveryStepKeepsTheStatus := by
  intro s t h hstep
  obtain ⟨-, hok, hreset | hquiet | htaken | hevent⟩ := step_cases hstep
  · obtain ⟨-, rfl⟩ := hreset
    exact statusInv_of_clear rfl rfl rfl
  · obtain ⟨-, -, -, rfl⟩ := hquiet
    exact h.congr rfl rfl rfl
  · obtain ⟨hr, -, w, -, ha⟩ := htaken
    have htk : StatusInv s.hostTaken := h.congr rfl rfl rfl
    exact htk.accept ((cfg_ok_iff _).mp (hok hr)).1 ha
  · obtain ⟨-, -, e, -, rfl⟩ := hevent
    exact h.congr (by simp) (by simp) (by simp)

/-! ## The chain (R44) -/

/-- The registers of a chip as the chain invariant has them. -/
def RegsInv (m : Memory) : Prop := m.wf ∧ ∀ x ∈ m, 1 ≤ x.1 ∧ x.1 ≤ 15

/-- No event takes a register out of its form: a CS edge latches, a CLK edge shifts, and nothing else reaches a chip. -/
theorem performEvent_keeps_regsInv {s : State} (h : ∀ c ∈ s.chain, RegsInv c.regs) (e : Event) :
    ∀ c ∈ (performEvent s e).chain, RegsInv c.regs := by
  cases e with
  | cs l =>
    simp only [performEvent, State.driveCS_chain]
    split
    · intro c hc
      obtain ⟨x, hx, rfl⟩ := List.mem_map.mp hc
      exact Chip.latch_inv (h x hx)
    · exact h
  | clk l =>
    simp only [performEvent, State.driveCLK_chain]
    split
    · exact forall_chainShift s.din h
    · exact h
  | din | wait => exact h

/-- Settles O47: a reset fits the chain to the `N` sampled and keeps the registers' form (`resetChips_inv`), and an event
keeps both (`performEvent_keeps_regsInv`). -/
theorem everyStepKeepsTheChain : Obligations.EveryStepKeepsTheChain := by
  intro s t hinv hstep
  obtain ⟨hlen, hregs⟩ := hinv
  obtain ⟨-, hok, hreset | hquiet | htaken | hevent⟩ := step_cases hstep
  · obtain ⟨-, rfl⟩ := hreset
    exact ⟨length_resetChips .., resetChips_inv _ hregs⟩
  · obtain ⟨-, -, -, rfl⟩ := hquiet
    exact ⟨hlen, hregs⟩
  · obtain ⟨hr, -, w, -, ha⟩ := htaken
    obtain ⟨hchain, hcfg⟩ := accept_keeps_chain (s := s.hostTaken) ((cfg_ok_iff _).mp (hok hr)).1 ha
    rw [ChainInv, hchain, hcfg]
    exact ⟨hlen, hregs⟩
  · obtain ⟨-, -, e, -, rfl⟩ := hevent
    exact ⟨by simpa using hlen, performEvent_keeps_regsInv (s := s.hostWaits) hregs e⟩

/-- Settles O48: right after reset the framebuffer lists no cell, the status is clear, and every chip of the `N` has no
register listed. -/
theorem resetMeetsTheOtherInvariants : Obligations.ResetMeetsTheOtherInvariants := by
  intro cfg
  refine ⟨framebufferInv_nil rfl, statusInv_of_clear rfl rfl rfl, List.length_replicate, fun c hc => ?_⟩
  rw [List.eq_of_mem_replicate hc]
  exact ⟨Memory.nil_wf, by simp [Chip.powerUp]⟩

end Sys2Proof.Machine
end

-- SUPPORT. The statements of single steps: an accepted word runs its command (R26), an idle step without a word changes
-- nothing (R41), and a word waits while the block is busy (R106).
section

namespace Sys2Proof.Machine

/-- Settles O20: the step takes the word (`step_takes_word`), and acceptance follows the decoder. -/
theorem stepRunsTheAcceptedCommand : Obligations.StepRunsTheAcceptedCommand := by
  intro s w h hok hp hh
  have hstep := step_takes_word hok hp hh
  exact ⟨fun i hd => hstep.trans (accept_of_instr hd _), fun c hd => hstep.trans (accept_of_rejected hd _)⟩

/-- In `IDLE` without a word and without reset only the host's move passes. -/
theorem step_of_quiet {s : State} (hok : s.cfg.ok = true) (hp : s.phase = .idle) (hr : s.rst = false)
    (ho : s.offered = none) : step s = .next s.hostWaits := by
  rw [step_idle hok hr hp, idleStep, ho]

/-- Settles O23: a quiet host, or one with no move left, neither resets nor offers a word (`step_of_quiet`). -/
theorem idleWithoutWordChangesNothing : Obligations.IdleWithoutWordChangesNothing := by
  intro s h hok hp hh
  have hquiet : s.rst = false ∧ s.offered = none ∧ hostAfterStep s.host = h := by
    rcases hh with hh | ⟨hh, rfl⟩ <;> simp [State.rst, State.offered, hh, hostAfterStep]
  obtain ⟨hr, ho, rfl⟩ := hquiet
  exact step_of_quiet hok hp hr ho

/-- Outside `IDLE` and without reset a step passes for the host, and leaves the framebuffer, the latched word, the error
status and the event list. -/
theorem step_running_keeps {s t : State} (h : step s = .next t) (hr : s.rst = false) (hp : s.phase ≠ .idle) :
    t.host = hostAfterStep s.host ∧ t.fb = s.fb ∧ t.cmd = s.cmd ∧ t.ill = s.ill ∧ t.illCause = s.illCause ∧
      t.illWord = s.illWord ∧ t.ev = s.ev := by
  obtain ⟨-, -, hreset | hquiet | htaken | hevent⟩ := step_cases h
  · exact absurd hreset.1 (by simp [hr])
  · exact absurd hquiet.2.1 hp
  · exact absurd htaken.2.1 hp
  · obtain ⟨-, -, e, -, rfl⟩ := hevent
    simp

/-- Settles O24: a word is no reset, and outside `IDLE` a step only passes for the host (`step_running_keeps`), which keeps
a held word and drops an offered one. -/
theorem wordsWaitWhileBusy : Obligations.WordsWaitWhileBusy := by
  intro s t w h hp hstep
  constructor
  · intro hh
    obtain ⟨hhost, hrest⟩ := step_running_keeps hstep (rst_of_word (.inr hh)) hp
    exact ⟨by rw [hhost, hh]; rfl, hrest⟩
  · intro hh
    obtain ⟨hhost, hrest⟩ := step_running_keeps hstep (rst_of_word (.inl hh)) hp
    exact ⟨by rw [hhost, hh]; rfl, hrest⟩

end Sys2Proof.Machine
end

-- SUPPORT. The statements of the reference chain (R44): what frames, flushes, `test`, resets and every step do to the chips
-- (R45, R46, R108 to R110).
section

namespace Sys2Proof.Machine

/-! ## One frame under `GROUP` (R45) -/

/-- The shift register at position `p` after a frame with at least `p` pairs: the word of the pair `p`-th from the end. -/
theorem chainSR_frame (s : State) (hclk : s.clk = false) (ps : List WirePair) {p : Nat} (hp : 1 ≤ p)
    (hl : p ≤ s.chain.length) (hw : p ≤ ps.length) :
    chainSR (performEvents s (frame ps)).chain p = (ps.getD (ps.length - p) ⟨0, 0⟩).word := by
  obtain ⟨-, -, -, hchain⟩ := performEvents_frame s hclk ps
  have hlt : ps.length - p < ps.length := by omega
  rw [hchain, chainSR_latch, chainSR_shiftWords _ _ hp hl (by rwa [List.length_map]), List.length_map]
  simp [List.getD_eq_getElem?_getD, hlt]

/-- Settles O50: each chip holds and latches the pair that many places from the end of the frame (`chainSR_frame`,
`chainReg_frame`). -/
theorem groupFrameReachesEveryChip : Obligations.GroupFrameReachesEveryChip := by
  intro s reg vals _ hclk hlen p hp hv
  have hl : (regGroup reg vals).length = vals.length := length_regGroup reg vals
  have hpair : (regGroup reg vals).getD ((regGroup reg vals).length - p) ⟨0, 0⟩ =
      ⟨reg, vals.getD (vals.length - p) 0⟩ := by rw [hl, getD_regGroup _ _ (by omega)]
  constructor
  · rw [chainSR_frame s hclk _ hp (by omega) (by omega), hpair]
    rfl
  · intro a
    rw [chainReg_frame s hclk _ hp (by omega) (by omega), hpair]

/-! ## The chips in step with the framebuffer (R46) -/

/-- The chips after the events left depend on the pins, the chips and those events alone. -/
theorem ChainShowsFramebuffer.congr {s t : State} (h : ChainShowsFramebuffer s) (hfb : t.fb = s.fb)
    (hcfg : t.cfg = s.cfg) (hchain : t.settled.chain = s.settled.chain) : ChainShowsFramebuffer t := by
  intro r hr p hp hv
  rw [hcfg] at hv ⊢
  rw [hchain, h r hr p hp hv, State.fbRead, State.fbRead, hfb]

/-- Two states with the same pins, chips and events left lead to the same chips. -/
theorem settled_chain_congr {s t : State} (hcs : t.cs = s.cs) (hclk : t.clk = s.clk) (hdin : t.din = s.din)
    (hchain : t.chain = s.chain) (hev : t.ev = s.ev) (hpc : t.pc = s.pc) : t.settled.chain = s.settled.chain := by
  obtain ⟨-, -, -, h⟩ := performEvents_pins hcs hclk hdin hchain (t.ev.drop t.pc)
  rw [State.settled, h, hev, hpc]
  rfl

/-- At the start of its event list a state settles by all of it. -/
theorem settled_of_start {s : State} (hpc : s.pc = 0) : s.settled = performEvents s s.ev := by
  rw [State.settled, hpc, List.drop_zero]

/-- R46: a full flush of the framebuffer, at its start, leads to the chips in step. -/
theorem chainShows_of_flush {s : State} (hc : s.cfg.cadence = .group) (hclk : s.clk = false)
    (hl : s.chain.length = s.cfg.n) (hpc : s.pc = 0) (hev : s.ev = writeDisplay s.cfg s.fb) :
    ChainShowsFramebuffer s := by
  intro r hr p hp hv
  rw [settled_of_start hpc, hev, chainReg_writeDisplay_group s s.fb hc hclk hl hp hv hr]
  rfl

/-- R46: the reset sequence, at its start, leads to the chips in step with the all-zero framebuffer. -/
theorem chainShows_of_resetSeq {s : State} (hc : s.cfg.cadence = .group) (hcs : s.cs = true) (hclk : s.clk = false)
    (hl : s.chain.length = s.cfg.n) (hpc : s.pc = 0) (hev : s.ev = resetSeq s.cfg) (hfb : s.fb = []) :
    ChainShowsFramebuffer s := by
  intro r hr p hp hv
  obtain ⟨-, hclk'⟩ := performEvents_frames_rest s hcs hclk (framing s.cfg.cadence .other (initGroups s.cfg))
  have hflush := chainReg_writeDisplay_group (performEvents s (initEvents s.cfg)) [] (by simpa using hc) hclk'
    (by simpa using hl) hp (by simpa using hv) hr
  rw [State.performEvents_cfg] at hflush
  rw [settled_of_start hpc, hev, resetSeq, performEvents_append, hflush, State.fbRead, hfb]

/-- `test` leaves the row registers as they were (R84). -/
theorem chainReg_row_testEvents (s : State) (hc : s.cfg.cadence = .group) (hclk : s.clk = false)
    (hl : s.chain.length = s.cfg.n) {p r : Nat} (hp : 1 ≤ p) (hv : p ≤ s.cfg.n) (hr : r < 8) :
    chainReg (performEvents s (testEvents s.cfg)).chain p (r + 1) = chainReg s.chain p (r + 1) := by
  rw [chainReg_testEvents s (by simp [hc]) hclk hl hp hv, if_neg (by omega)]

/-- An acceptance from an idle block in step: a drawing command flushes what it drew, `test` leaves the row registers,
and a rejection changes neither the chips nor the framebuffer. -/
theorem ChainShowsFramebuffer.accept {w : CmdWord} {s t : State} (h : ChainShowsFramebuffer s)
    (hseq : SequencerInv s) (hp : s.phase = .idle) (hc : s.cfg.cadence = .group) (hl : s.chain.length = s.cfg.n)
    (hn : 1 ≤ s.cfg.n) (ha : accept w s = .next t) : ChainShowsFramebuffer t := by
  obtain ⟨hsettled, -, hclk⟩ := hseq.idle hp
  rcases accept_next_cases hn ha with ⟨_, fb, _, _, rfl, _, _⟩ | ⟨_, rfl⟩ | ⟨c, _, rfl⟩
  · exact chainShows_of_flush hc hclk hl rfl rfl
  · intro r hr q hq hv
    have htest := chainReg_row_testEvents (({ s with cmd := w } : State).startEvents (testEvents s.cfg)) hc hclk hl hq
      hv hr
    have hnow := h r hr q hq hv
    rw [hsettled] at hnow
    exact (congrArg (chainReg ·.chain q (r + 1)) (settled_of_start rfl)).trans (htest.trans hnow)
  · refine h.congr (by simp) (by simp) (settled_chain_congr ?_ ?_ ?_ ?_ ?_ ?_) <;> simp

/-- Settles O51, by the four kinds of step: a reset starts its sequence (`chainShows_of_resetSeq`), an idle step changes
nothing, an acceptance starts from an idle block (`ChainShowsFramebuffer.accept`), and an event performed leads where it
led before (`settled_advance`). -/
theorem everyStepKeepsTheChipsInStep : Obligations.EveryStepKeepsTheChipsInStep := by
  intro s t hseq hchain h hstep hc
  obtain ⟨hlen, -⟩ := hchain
  obtain ⟨-, hok, hreset | hquiet | htaken | hevent⟩ := step_cases hstep
  · obtain ⟨-, rfl⟩ := hreset
    exact chainShows_of_resetSeq hc rfl rfl (length_resetChips ..) rfl rfl rfl
  · obtain ⟨-, -, -, rfl⟩ := hquiet
    exact (h hc).congr rfl rfl (settled_chain_congr rfl rfl rfl rfl rfl rfl)
  · obtain ⟨hr, hp, w, -, ha⟩ := htaken
    have hn : 1 ≤ s.cfg.n := ((cfg_ok_iff _).mp (hok hr)).1
    have hcfg : t.cfg = s.cfg := (accept_keeps_chain (s := s.hostTaken) hn ha).2
    rw [hcfg] at hc
    have htk : ChainShowsFramebuffer s.hostTaken :=
      (h hc).congr rfl rfl (settled_chain_congr rfl rfl rfl rfl rfl rfl)
    exact htk.accept (hseq.congr rfl rfl rfl rfl rfl) hp hc hlen hn ha
  · obtain ⟨-, hp, e, he, rfl⟩ := hevent
    obtain ⟨hlt, rfl⟩ := List.getElem?_eq_some_iff.mp he
    obtain ⟨-, -, -, hsame⟩ := settled_advance s hlt
    have hcfg : (performEvent s.hostWaits s.ev[s.pc]).advance.cfg = s.cfg := by simp
    rw [hcfg] at hc
    exact (h hc).congr (by simp) hcfg hsame

/-- Settles O52: the reset sequence from its start, with any chips (`chainShows_of_resetSeq`). -/
theorem resetSequenceBringsTheChipsInStep : Obligations.ResetSequenceBringsTheChipsInStep :=
  fun _ _ _ hc hl => chainShows_of_resetSeq hc rfl rfl hl rfl rfl rfl

/-! ## The display test (R84, R108) -/

/-- A chip whose display-test register is 1 shows all LEDs in every row. -/
theorem chainShows_of_displayTest {l : List Chip} {p : Nat} (h : chainReg l p 15 = 0x01) (r : Nat) :
    chainShows l p r = some 0xFF := by
  rw [chainShows, if_pos h]

/-- After some events have set display-test at a chip, its LEDs stay lit as long as no CS rising edge comes. -/
theorem lit_until_select_rise {s : State} {es fs : List Event} {p k : Nat}
    (hlit : chainReg (performEvents s es).chain p 15 = 0x01) (hk : es.length ≤ k)
    (hfs : .cs true ∉ fs.take (k - es.length)) (r : Nat) :
    chainShows (performEvents s ((es ++ fs).take k)).chain p r = some 0xFF := by
  refine chainShows_of_displayTest ?_ r
  rw [List.take_append, List.take_of_length_le hk, performEvents_append,
    chainReg_congr (performEvents_regs hfs _), hlit]

/-- From a pause up to before the closing edge of the frame after it no CS rising edge comes. -/
theorem cs_true_notMem_take_pause_frame (ps : List WirePair) (es : List Event) {j : Nat}
    (hj : j < 48 * ps.length + 4) : .cs true ∉ (.wait .pause :: (frame ps ++ es)).take j := by
  cases j with
  | zero => simp
  | succ j =>
    have hlt : j < (frame ps).length := by rw [length_frame]; omega
    rw [List.take_succ_cons, List.take_append_of_le_length hlt.le, List.mem_cons]
    exact not_or.mpr ⟨nofun, cs_true_notMem_take_frame ps hlt⟩

theorem length_pairFrames (ps : List WirePair) : (pairFrames ps).length = 51 * ps.length := by
  have hflat : (ps.map fun x => [x]).flatten = ps := by rw [← List.flatMap_def, List.flatMap_singleton']
  rw [pairFrames, length_flatMap_frame, hflat, List.length_map]
  omega

theorem pairFrames_cons (x : WirePair) (ps : List WirePair) : pairFrames (x :: ps) = frame [x] ++ pairFrames ps := by
  simp [pairFrames]

/-- A broadcast to at least one chip under `PAIR` begins with a frame of one pair. -/
theorem pairFrames_bcast {n : Nat} (hn : 1 ≤ n) (reg v : Byte) :
    pairFrames (bcast n reg v) = frame [⟨reg, v⟩] ++ pairFrames (bcast (n - 1) reg v) := by
  obtain ⟨m, rfl⟩ := Nat.exists_eq_add_of_le' hn
  rw [← pairFrames_cons]
  rfl

section
variable {s : State} {p : Nat} (hclk : s.clk = false) (hl : s.chain.length = s.cfg.n) (hp : 1 ≤ p) (hv : p ≤ s.cfg.n)
include hclk hl hp hv

/-- One frame a half: lit from the closing edge of the first up to before that of the second. -/
theorem lit_during_test (hc : s.cfg.cadence ≠ .pair) {k : Nat} (h1 : 48 * s.cfg.n + 3 ≤ k)
    (h2 : k < 96 * s.cfg.n + 7) (r : Nat) :
    chainShows (performEvents s ((testEvents s.cfg).take k)).chain p r = some 0xFF := by
  have hlen : (frame (bcast s.cfg.n regDisplayTest 0x01)).length = 48 * s.cfg.n + 3 := by
    rw [length_frame, length_bcast]
  have hlit : chainReg (performEvents s (frame (bcast s.cfg.n regDisplayTest 0x01))).chain p 15 = 0x01 := by
    rw [chainReg_bcast _ _ _ s hclk hl hp hv, if_pos (by decide)]
  rw [testEvents_eq _ hc]
  exact lit_until_select_rise hlit (by omega)
    (cs_true_notMem_take_pause_frame _ _ (by rw [hlen, length_bcast]; omega)) r

/-- One frame a pair: lit from the last closing edge of the first half up to before the first of the second. -/
theorem lit_during_test_pair (hc : s.cfg.cadence = .pair) {k : Nat} (h1 : 51 * s.cfg.n ≤ k)
    (h2 : k < 51 * s.cfg.n + 52) (r : Nat) :
    chainShows (performEvents s ((testEvents s.cfg).take k)).chain p r = some 0xFF := by
  have hlen : (pairFrames (bcast s.cfg.n regDisplayTest 0x01)).length = 51 * s.cfg.n := by
    rw [length_pairFrames, length_bcast]
  have hlit : chainReg (performEvents s (pairFrames (bcast s.cfg.n regDisplayTest 0x01))).chain p 15 = 0x01 :=
    chainReg_pairFrames_bcast _ _ _ (by decide) s hclk hl hp hv
  rw [testEvents_pair _ hc, pairFrames_bcast (by omega : 1 ≤ s.cfg.n) regDisplayTest 0x00, List.append_assoc]
  exact lit_until_select_rise hlit (by omega)
    (cs_true_notMem_take_pause_frame _ _ (by rw [hlen, List.length_singleton]; omega)) r

/-- Under `PAIR` too display-test is off in the end. -/
theorem displayTest_off_after_test_pair (hc : s.cfg.cadence = .pair) :
    chainReg (performEvents s (testEvents s.cfg)).chain p 15 = 0x00 := by
  obtain ⟨hclk', -⟩ := performEvents_pairFrames (bcast s.cfg.n regDisplayTest 0x01) s hclk
  rw [testEvents_pair _ hc, performEvents_append, performEvents_cons, performEvents_append]
  exact chainReg_pairFrames_bcast _ _ _ (by decide) _ hclk' (by simpa [performEvent] using hl) hp hv

end

/-- Settles O53: the first half lights every chip, which holds until the next CS rising edge (`lit_until_select_rise`), and
the second half puts display-test off. -/
theorem displayTestLightsEveryChip : Obligations.DisplayTestLightsEveryChip := by
  intro s _ hclk hl p hp hv
  exact ⟨fun hc => ⟨fun k h1 h2 => lit_during_test hclk hl hp hv hc h1 h2, chainReg_testEvents s hc hclk hl hp hv⟩,
    fun hc => ⟨fun k h1 h2 => lit_during_test_pair hclk hl hp hv hc h1 h2,
      displayTest_off_after_test_pair hclk hl hp hv hc⟩⟩

/-! ## When a chip's register changes (R46), and what a reset does to a chip (R109) -/

/-- An event that changes a register of a chip is a CS rising edge. -/
theorem select_rise_of_reg_change {s : State} {e : Event} {p a : Nat}
    (h : chainReg (performEvent s e).chain p a ≠ chainReg s.chain p a) :
    s.cs = false ∧ (performEvent s e).cs = true := by
  by_cases he : e = .cs true
  · subst he
    refine ⟨?_, rfl⟩
    by_contra hcs
    rw [Bool.not_eq_false] at hcs
    exact h (by simp [performEvent, hcs])
  · exact absurd (chainReg_congr (performEvent_regs he s) p a) h

/-- Settles O54: a reset drives CS to 1 and reaches a chip it keeps only from CS = 0 (`resetChips_kept`), an acceptance
reaches no chip, and an event only by a CS rising edge (`select_rise_of_reg_change`). -/
theorem chipsChangeOnlyAtSelectRise : Obligations.ChipsChangeOnlyAtSelectRise := by
  intro s t hstep p a hp hs ht hne
  obtain ⟨-, hok, hreset | hquiet | htaken | hevent⟩ := step_cases hstep
  · obtain ⟨-, rfl⟩ := hreset
    rw [State.resetBlock_chain, length_resetChips] at ht
    obtain ⟨-, hreg⟩ := resetChips_kept s.cfgNow s.hostWaits hp ht hs
    refine ⟨?_, rfl⟩
    by_contra hcs
    rw [Bool.not_eq_false] at hcs
    exact hne ((hreg a).trans (if_pos hcs))
  · obtain ⟨-, -, -, rfl⟩ := hquiet
    exact absurd rfl hne
  · obtain ⟨hr, -, w, -, ha⟩ := htaken
    obtain ⟨hchain, -⟩ := accept_keeps_chain (s := s.hostTaken) ((cfg_ok_iff _).mp (hok hr)).1 ha
    exact absurd (by rw [hchain]; rfl) hne
  · obtain ⟨-, -, e, -, rfl⟩ := hevent
    exact select_rise_of_reg_change (s := s.hostWaits) hne

/-- Everything a reset can do to a position that comes new. -/
theorem resetChips_unknown (c : Config) (s : State) {p : Nat} (hl : s.chain.length < p) (hn : p ≤ c.n) :
    chainSR (resetChips c s) p = Config.freeSR s.free p ∧
      ∀ a, 1 ≤ a → a ≤ 15 → chainReg (resetChips c s) p a = Config.freeReg s.free p a := by
  have hnew := resetChips_new c s (i := p - 1) (by omega) (by omega)
  rw [Nat.sub_add_cancel (by omega : 1 ≤ p)] at hnew
  refine ⟨by rw [chainSR, hnew]; rfl, fun a h1 h15 => ?_⟩
  have hmem : a ∈ List.range' 1 15 := by rw [List.mem_range'_1]; omega
  rw [chainReg, hnew]
  exact (freeRegs_read s.free p _ [] a).trans (if_pos hmem)

/-- Intensity is among the registers a reset sequence leaves, under every cadence. -/
theorem intensity_mem_leftByReset (c : Config) : 0xA ∈ leftByReset c := by simp [leftByReset]

/-- Settles O57: the step is `resetBlock` of the parameters sampled, whose chips are kept (`resetChips_kept`) or unknown
(`resetChips_unknown`). -/
theorem resetInsideAFrameLatches : Obligations.ResetInsideAFrameLatches := by
  intro s t c h hh hstep
  obtain ⟨hok, -, -⟩ := step_cases hstep
  rw [cfgNow_of_host_reset hh] at hok
  obtain rfl : t = resetBlock c s.hostWaits := by
    rw [step_of_host_reset hh hok] at hstep
    exact (Host.Outcome.next.inj hstep).symm
  exact ⟨length_resetChips .., intensity_mem_leftByReset c, fun p hp hn hl => resetChips_kept c s.hostWaits hp hn hl,
    fun p hl hn => resetChips_unknown c s.hostWaits hl hn, rfl⟩

/-! ## The other cadences (R110) -/

/-- The register of the pair at a place of the flush: the row of that place. -/
theorem flushGroups_reg_nibble (n : Nat) (fb : Memory) {i : Nat} (hi : i < 8 * n) :
    ((flushGroups n fb).flatten.getD i ⟨0, 0⟩).reg.toNat % 16 = i / n + 1 := by
  have hn : 0 < n := by omega
  have hrow : i / n < 8 := (Nat.div_lt_iff_lt_mul hn).mpr hi
  have hpair := getD_flushGroups n fb hrow (Nat.mod_lt i hn)
  rw [Nat.div_add_mod'] at hpair
  rw [hpair]
  exact rowRegister_nibble hrow

/-- The pair of row 7 that reaches position `p` last. -/
theorem getD_flushGroups_rowSeven (n : Nat) (fb : Memory) {p : Nat} (hp : 1 ≤ p) (hv : p ≤ n) :
    (flushGroups n fb).flatten.getD (8 * n - p) ⟨0, 0⟩ = ⟨rowRegister 7, fb.read (fbAddr 7 (n - p))⟩ := by
  rw [← getD_flushGroups n fb (by decide : 7 < 8) (by omega : n - p < n)]
  congr 1
  omega

section
variable {s : State} {p : Nat} (hclk : s.clk = false) (hl : s.chain.length = s.cfg.n) (hp : 1 ≤ p) (hv : p ≤ s.cfg.n)
include hclk hl hp hv

/-- `FLUSH`: one frame, of which position `p` latches the pair `p`-th from the end, one of row 7. -/
theorem chainReg_writeDisplay_flush (hc : s.cfg.cadence = .flush) (a : Nat) :
    chainReg (performEvents s (writeDisplay s.cfg s.fb)).chain p a =
      if a = 8 then s.fbRead 7 (s.cfg.n - p) else chainReg s.chain p a := by
  have hframe : writeDisplay s.cfg s.fb = frame (flushGroups s.cfg.n s.fb).flatten := by
    rw [writeDisplay, frames, hc, framing, List.flatMap_singleton]
  have hlen := length_flatten_flushGroups s.cfg.n s.fb
  rw [hframe, chainReg_frame s hclk _ hp (by omega) (by omega), hlen, getD_flushGroups_rowSeven _ _ hp hv]
  by_cases ha : a = 8
  · rw [if_pos ha, if_pos ⟨ha.trans (rowRegister_nibble (by decide)).symm, by omega⟩]
    rfl
  · rw [if_neg ha, if_neg fun h => ha (h.1.trans (rowRegister_nibble (by decide)))]

/-- `PAIR`, row 7: the last frame puts the pair of the chip's own index at position `p`. -/
theorem chainReg_writeDisplay_pair_rowSeven (hc : s.cfg.cadence = .pair) :
    chainReg (performEvents s (writeDisplay s.cfg s.fb)).chain p 8 = s.fbRead 7 (s.cfg.n - p) := by
  have hlen := length_flatten_flushGroups s.cfg.n s.fb
  have hlast := chainReg_pairFrames_succ (flushGroups s.cfg.n s.fb).flatten s hclk (m := 8 * s.cfg.n - 1) hp (by omega)
    (by omega) (by omega) 8
  rw [Nat.sub_add_cancel (by omega), getD_flushGroups_rowSeven _ _ hp hv, ← hlen, List.take_length,
    if_pos ⟨(rowRegister_nibble (by decide)).symm, by decide⟩] at hlast
  rw [writeDisplay_pair _ _ hc]
  exact hlast

/-- `PAIR`, the other rows: the last pair of row `r` that passes position `p` is that of the last chip index, and the
frames after it put pairs of later rows there. -/
theorem chainReg_writeDisplay_pair_row (hc : s.cfg.cadence = .pair) {r : Nat} (hr : r < 7) :
    chainReg (performEvents s (writeDisplay s.cfg s.fb)).chain p (r + 1) = s.fbRead r (s.cfg.n - 1) := by
  have hlen := length_flatten_flushGroups s.cfg.n s.fb
  have hrow : r * s.cfg.n + s.cfg.n ≤ 7 * s.cfg.n := by
    rw [← Nat.succ_mul]
    exact Nat.mul_le_mul_right _ hr
  -- the number of frames before the one that latches that pair
  obtain ⟨m, hm⟩ : ∃ m, m + 1 = r * s.cfg.n + (s.cfg.n - 1) + p := ⟨r * s.cfg.n + (s.cfg.n - 1) + p - 1, by omega⟩
  have hlatch := chainReg_pairFrames_succ (flushGroups s.cfg.n s.fb).flatten s hclk (m := m) hp (by omega)
    (by omega) (by omega) (r + 1)
  rw [hm, Nat.add_sub_cancel, ← hm, getD_flushGroups _ _ (by omega) (by omega),
    if_pos ⟨(rowRegister_nibble (by omega)).symm, by omega⟩] at hlatch
  have hkeep := chainReg_pairFrames_keep (flushGroups s.cfg.n s.fb).flatten s hclk (m := m + 1) hp (by omega)
    (by omega) (r + 1) (8 * s.cfg.n - (m + 1)) (by omega) fun j h1 h2 => by
      have hdiv : r + 1 ≤ (j - p) / s.cfg.n := (Nat.le_div_iff_mul_le (by omega)).mpr (by rw [Nat.succ_mul]; omega)
      rw [flushGroups_reg_nibble _ _ (by omega)]
      omega
  rw [Nat.add_sub_cancel' (by omega), ← hlen, List.take_length] at hkeep
  rw [writeDisplay_pair _ _ hc]
  exact hkeep.trans hlatch

end

/-- Settles O55, by the last pair of each row that a position latches. -/
theorem pairCadenceShowsTheLastChip : Obligations.PairCadenceShowsTheLastChip := by
  intro s hc _ hclk hl p hp hv
  exact ⟨fun r hr => chainReg_writeDisplay_pair_row hclk hl hp hv hc hr,
    chainReg_writeDisplay_pair_rowSeven hclk hl hp hv hc⟩

/-- Settles O56, by the one pair of the one frame that a position latches. -/
theorem flushCadenceWritesOnlyRowSeven : Obligations.FlushCadenceWritesOnlyRowSeven := by
  intro s hc _ hclk hl p hp hv
  have hreg := chainReg_writeDisplay_flush hclk hl hp hv hc
  exact ⟨(hreg 8).trans (if_pos rfl), fun a ha => (hreg a).trans (if_neg ha)⟩

end Sys2Proof.Machine
end

-- SUPPORT. The statements of the event lists: what a receiver reads of `test` and of the reset sequence, the lengths of the
-- lists (R72), their register bytes (R38), the level DIN keeps (R71), and the least time they take (R60).
section

namespace Sys2Proof.Machine

/-! ## The frames of each cadence (R66 to R68) -/

section
variable {c : Cadence} (gs : List (List WirePair))

/-- Outside `PAIR` a wire program that is no flush is one frame per group. -/
theorem framing_other (hc : c ≠ .pair) : framing c .other gs = gs := by
  cases c with
  | group | flush => rfl
  | pair => exact absurd rfl hc

/-- Under `PAIR` every wire program is one frame per pair. -/
theorem framing_pair (k : ProgKind) : framing .pair k gs = gs.flatten.map fun p => [p] := by
  have hone : framing .pair k gs = gs.flatMap fun g => g.map fun p => [p] := by cases k <;> rfl
  rw [hone, List.map_flatten, List.flatMap_def]

end

/-! ## `test` and the reset sequence as a receiver reads them (R84, R101, R103) -/

section
variable (cfg : Config) (d : Bool)

/-- A receiver reads the frames of both halves of `test`; the pauses carry nothing. -/
theorem wireFrames_testEvents : wireFrames d (testEvents cfg) =
    (framing cfg.cadence .other [bcast cfg.n regDisplayTest 0x01]).map bitsOf ++
      (framing cfg.cadence .other [bcast cfg.n regDisplayTest 0x00]).map bitsOf := by
  rw [wireFrames, testEvents, frames, frames, List.append_assoc, List.append_assoc, readFrames_frames,
    List.singleton_append, readFrames, readFrames_frames, readFrames, readFrames, List.append_nil]

theorem wireFrames_initEvents : wireFrames d (initEvents cfg) =
    (framing cfg.cadence .other (initGroups cfg)).map bitsOf := wireFrames_frames ..

/-- What a receiver reads of a flush does not depend on the level DIN was left at. -/
theorem wireFrames_resetSeq : wireFrames d (resetSeq cfg) =
    wireFrames d (initEvents cfg) ++ wireFrames d (writeDisplay cfg []) := by
  have hread := readFrames_frames d (framing cfg.cadence .other (initGroups cfg)) (writeDisplay cfg [])
  have hflush : ∀ d', wireFrames d' (writeDisplay cfg []) = wireFrames d (writeDisplay cfg []) := fun d' => by
    rw [writeDisplay, wireFrames_frames, wireFrames_frames]
  rw [wireFrames_initEvents, ← hflush]
  exact hread

end

/-- The frames of one broadcast under `PAIR` are its word, once for each chip. -/
theorem map_pairBits_bcast (n : Nat) (reg v : Byte) :
    (bcast n reg v).map pairBits = List.replicate n (wordBits reg v) := by
  rw [bcast, regGroup, List.map_map, List.map_replicate]
  rfl

/-- Settles O29: each list is read as the bits of the frames its cadence makes of its broadcasts, group by group
(`framing_other`) or pair by pair (`framing_pair`). -/
theorem controlWritesOnTheWire : Obligations.ControlWritesOnTheWire := by
  intro cfg d
  refine ⟨fun hc => ?_, fun hc => ?_, wireFrames_resetSeq cfg d⟩
  · rw [wireFrames_testEvents, wireFrames_initEvents, framing_other _ hc, framing_other _ hc, framing_other _ hc,
      initGroups]
    cases cfg.initIntensity with
    | none | some =>
      simp only [List.map_cons, List.map_append, List.map_nil, bitsOf_bcast]
      exact ⟨rfl, rfl⟩
  · rw [wireFrames_testEvents, wireFrames_initEvents, hc, framing_pair, framing_pair, framing_pair,
      map_bitsOf_singles, map_bitsOf_singles, map_bitsOf_singles, initGroups]
    cases cfg.initIntensity with
    | none | some =>
      simp [map_pairBits_bcast, regDecodeMode, regScanLimit, regShutdown, regDisplayTest, regIntensity]

/-! ## The lengths of the lists (R72) -/

/-- Every bit has one rising edge of CLK. -/
theorem count_clk_bits (bs : List Bool) : (bs.flatMap sendBit).count (.clk true) = bs.length := by
  induction bs with
  | nil => rfl
  | cons b bs ih =>
    have hbit : (sendBit b).count (.clk true) = 1 := by cases b <;> decide
    rw [List.flatMap_cons, List.count_append, hbit, ih, List.length_cons, Nat.add_comm]

/-- Every pair has 16 rising edges of CLK, whatever the frames. -/
theorem count_clk_frames (fs : List (List WirePair)) :
    (fs.flatMap frame).count (.clk true) = 16 * fs.flatten.length := by
  induction fs with
  | nil => rfl
  | cons f fs ih =>
    have hframe : (frame f).count (.clk true) = 16 * f.length := by
      rw [frame_eq_bits, List.count_cons_of_ne (by decide), List.count_cons_of_ne (by decide), List.count_append,
        count_clk_bits, length_bitsOf]
      rfl
    rw [List.flatMap_cons, List.count_append, hframe, ih, List.flatten_cons, List.length_append]
    omega

/-- A wire program has 48 events for each pair and 3 for each frame. -/
theorem length_frames (c : Cadence) (k : ProgKind) (gs : List (List WirePair)) :
    (frames c k gs).length = 48 * gs.flatten.length + 3 * (framing c k gs).length := by
  rw [frames, length_flatMap_frame, flatten_framing]

theorem length_framing_pair (k : ProgKind) (gs : List (List WirePair)) :
    (framing .pair k gs).length = gs.flatten.length := by
  rw [framing_pair, List.length_map]

theorem length_flushGroups (n : Nat) (fb : Memory) : (flushGroups n fb).length = 8 := by simp [flushGroups]

/-- Settles O30: a flush has 8N pairs (`length_flatten_flushGroups`) in 8, 8N or one frame. -/
theorem flushEventCounts : Obligations.FlushEventCounts := by
  intro cfg fb
  have hpairs := length_flatten_flushGroups cfg.n fb
  refine ⟨length_frame, fun hc => ?group, fun hc => ?pair, fun hc => ?flush, ?edges⟩
  case group =>
    rw [writeDisplay, length_frames, hpairs, hc, framing, length_flushGroups]
    omega
  case pair =>
    rw [writeDisplay, length_frames, hpairs, hc, length_framing_pair, hpairs]
    omega
  case flush =>
    rw [writeDisplay, length_frames, hpairs, hc, framing, List.length_singleton]
    omega
  case edges =>
    rw [writeDisplay, frames, count_clk_frames, flatten_framing, hpairs]
    omega

/-- `test` is two broadcasts and two pauses. -/
theorem length_testEvents (cfg : Config) : (testEvents cfg).length =
    96 * cfg.n + 2 + 3 * (framing cfg.cadence .other [bcast cfg.n regDisplayTest 0x01]).length +
      3 * (framing cfg.cadence .other [bcast cfg.n regDisplayTest 0x00]).length := by
  simp only [testEvents, List.length_append, length_frames, List.flatten_singleton, length_bcast, List.length_singleton]
  omega

/-- The groups of the initialisation: four broadcasts, and a fifth with a configured intensity. -/
theorem length_initGroups (cfg : Config) :
    (initGroups cfg).length = (if cfg.initIntensity = none then 4 else 5) ∧
    (initGroups cfg).flatten.length = (if cfg.initIntensity = none then 4 * cfg.n else 5 * cfg.n) := by
  rw [initGroups]
  cases cfg.initIntensity with
  | none | some =>
    simp [length_bcast]
    omega

theorem length_resetSeq (cfg : Config) : (resetSeq cfg).length =
    48 * (initGroups cfg).flatten.length + 3 * (framing cfg.cadence .other (initGroups cfg)).length +
      (writeDisplay cfg []).length := by
  rw [resetSeq, initEvents, List.length_append, length_frames]

/-- Settles O31: the pairs and the frames of `test` and of the initialisation, and the length of the flush (O30). -/
theorem controlEventCounts : Obligations.ControlEventCounts := by
  intro cfg
  obtain ⟨-, hgroup, hpair, hflush, -⟩ := flushEventCounts cfg []
  obtain ⟨hgroups, hpairs⟩ := length_initGroups cfg
  rw [length_testEvents, length_resetSeq]
  refine ⟨fun hc => ?group, fun hc => ?pair, fun hc => ?flush⟩
  case group =>
    rw [hgroup hc, framing_other _ (by simp [hc]), framing_other _ (by simp [hc]), framing_other _ (by simp [hc]),
      hgroups, hpairs, List.length_singleton, List.length_singleton]
    split <;> omega
  case pair =>
    rw [hpair hc, hc, length_framing_pair, length_framing_pair, length_framing_pair, hpairs, List.flatten_singleton,
      List.flatten_singleton, length_bcast, length_bcast]
    split <;> omega
  case flush =>
    rw [hflush hc, framing_other _ (by simp [hc]), framing_other _ (by simp [hc]), framing_other _ (by simp [hc]),
      hgroups, hpairs, List.length_singleton, List.length_singleton]
    split <;> omega

/-! ## The register bytes (R38) -/

/-- A frame has only pairs of the wire program, whatever the cadence. -/
theorem mem_of_mem_framing {c : Cadence} {k : ProgKind} {gs : List (List WirePair)} {f : List WirePair}
    (hf : f ∈ framing c k gs) {p : WirePair} (hp : p ∈ f) : ∃ g ∈ gs, p ∈ g := by
  rw [← List.mem_flatten, ← flatten_framing c k gs]
  exact List.mem_flatten_of_mem hf hp

theorem mem_bcast {n : Nat} {reg v : Byte} {p : WirePair} (h : p ∈ bcast n reg v) : p = ⟨reg, v⟩ := by
  obtain ⟨x, hx, rfl⟩ := List.mem_map.mp h
  rw [List.eq_of_mem_replicate hx]

theorem reg_of_mem_flushGroups {n : Nat} {fb : Memory} {g : List WirePair} (hg : g ∈ flushGroups n fb)
    {p : WirePair} (hp : p ∈ g) : 1 ≤ p.reg.toNat ∧ p.reg.toNat ≤ 8 := by
  obtain ⟨i, hi, rfl⟩ := List.mem_map.mp hg
  obtain ⟨v, -, rfl⟩ := List.mem_map.mp hp
  have hi8 : i < 8 := List.mem_range.mp hi
  have hreg : (rowRegister i).toNat = i + 1 := by simp [rowRegister]; omega
  constructor <;> simp only [hreg] <;> omega

/-- The groups of the initialisation, each a broadcast. -/
theorem mem_initGroups {cfg : Config} {g : List WirePair} (hg : g ∈ initGroups cfg) :
    g = bcast cfg.n regDecodeMode cfg.initDecode ∨ g = bcast cfg.n regScanLimit cfg.initScan ∨
      g = bcast cfg.n regShutdown cfg.initShutdown ∨ g = bcast cfg.n regDisplayTest cfg.initTest ∨
      ∃ v, cfg.initIntensity = some v ∧ g = bcast cfg.n regIntensity v := by
  rw [initGroups] at hg
  cases hi : cfg.initIntensity with
  | none => simpa [hi] using hg
  | some v => simpa [hi, or_assoc] using hg

/-- Settles O32: a pair of a frame is a pair of a group (`mem_of_mem_framing`), and a group's pairs have the group's
register. -/
theorem registerBytesOfTheMap : Obligations.RegisterBytesOfTheMap := by
  intro cfg fb
  refine ⟨fun f hf p hp => ?flush, fun f hf p hp => ?init, fun v f hf p hp => ?test⟩
  case flush =>
    obtain ⟨g, hg, hpg⟩ := mem_of_mem_framing hf hp
    exact reg_of_mem_flushGroups hg hpg
  case init =>
    obtain ⟨g, hg, hpg⟩ := mem_of_mem_framing hf hp
    rcases mem_initGroups hg with rfl | rfl | rfl | rfl | ⟨v, hv, rfl⟩ <;> rw [mem_bcast hpg]
    · exact .inl rfl
    · exact .inr (.inl rfl)
    · exact .inr (.inr (.inl rfl))
    · exact .inr (.inr (.inr (.inl rfl)))
    · exact .inr (.inr (.inr (.inr ⟨rfl, hv⟩)))
  case test =>
    obtain ⟨g, hg, hpg⟩ := mem_of_mem_framing hf hp
    rw [List.mem_singleton.mp hg] at hpg
    rw [mem_bcast hpg]
    exact ⟨rfl, rfl⟩

/-! ## The level DIN keeps (R71) -/

/-- `DIN` after a wire program, from any levels: the last bit of its pairs, whatever the cadence. -/
theorem performEvents_framed_din (s : State) (c : Cadence) (k : ProgKind) (gs : List (List WirePair)) :
    (performEvents s (frames c k gs)).din = lastBit s.din (bitsOf gs.flatten) := by
  rw [frames, performEvents_frames_din, flatten_framing]

/-- The last bit of some pairs is bit 0 of the value byte that stands last. -/
theorem lastBit_bitsOf_getD (d : Bool) {ps : List WirePair} (h : 0 < ps.length) :
    lastBit d (bitsOf ps) = (ps.getD (ps.length - 1) ⟨0, 0⟩).value.getLsbD 0 := by
  have hne : ps ≠ [] := List.ne_nil_of_length_pos h
  have hlast : ps.getD (ps.length - 1) ⟨0, 0⟩ = ps.getLast hne := by
    rw [List.getD_eq_getElem _ _ (by omega), List.getLast_eq_getElem]
  rw [hlast]
  conv_lhs => rw [← List.dropLast_append_getLast hne]
  exact lastBit_bitsOf d ps.dropLast (ps.getLast hne)

section
variable (s : State) {cfg : Config} (hn : 1 ≤ cfg.n)
include hn

/-- After a flush DIN is bit 0 of row 7 of the last chip index. -/
theorem din_writeDisplay (fb : Memory) :
    (performEvents s (writeDisplay cfg fb)).din = (fb.read (fbAddr 7 (cfg.n - 1))).getLsbD 0 := by
  have hlen := length_flatten_flushGroups cfg.n fb
  rw [writeDisplay, performEvents_framed_din, lastBit_bitsOf_getD _ (by omega), hlen,
    getD_flushGroups_rowSeven _ _ le_rfl hn]

/-- After a broadcast DIN is bit 0 of the value sent. -/
theorem din_bcast (c : Cadence) (k : ProgKind) (reg v : Byte) :
    (performEvents s (frames c k [bcast cfg.n reg v])).din = v.getLsbD 0 := by
  have hlen : (bcast cfg.n reg v).length = cfg.n := length_bcast ..
  rw [performEvents_framed_din, List.flatten_singleton, lastBit_bitsOf_getD _ (by omega),
    List.getD_eq_getElem _ _ (by omega), mem_bcast (List.getElem_mem _)]

theorem din_testEvents : (performEvents s (testEvents cfg)).din = false := by
  rw [testEvents, performEvents_append, performEvents_append]
  exact din_bcast _ hn cfg.cadence .other regDisplayTest 0x00

theorem din_resetSeq : (performEvents s (resetSeq cfg)).din = false := by
  rw [resetSeq, performEvents_append, din_writeDisplay _ hn, Memory.read_nil]
  rfl

end

/-- Settles O33, by the last pair of each list. -/
theorem dinKeepsTheLastBit : Obligations.DinKeepsTheLastBit :=
  fun s fb hn => ⟨din_writeDisplay s hn fb, din_testEvents s hn, din_resetSeq s hn⟩

/-! ## The least time (R60) -/

/-- With `T_BIT = 0` bits take no time. -/
theorem minDuration_bits (bs : List Bool) : ((bs.flatMap sendBit).map eventMinDuration).sum = 0 := by
  induction bs with
  | nil => rfl
  | cons b bs ih =>
    rw [List.flatMap_cons, List.map_append, List.sum_append, ih]
    rfl

/-- A frame takes its settle wait. -/
theorem minDuration_frame (ps : List WirePair) : ((frame ps).map eventMinDuration).sum = Config.tSettle := by
  rw [frame_eq_bits, List.map_cons, List.map_cons, List.map_append, List.sum_cons, List.sum_cons, List.sum_append,
    minDuration_bits]
  simp [eventMinDuration, Config.tBit]

theorem minDuration_frames (fs : List (List WirePair)) :
    ((fs.flatMap frame).map eventMinDuration).sum = fs.length * Config.tSettle := by
  induction fs with
  | nil => simp
  | cons f fs ih =>
    rw [List.flatMap_cons, List.map_append, List.sum_append, minDuration_frame, ih, List.length_cons, Nat.succ_mul,
      Nat.add_comm]

/-- Settles O34: a frame takes its settle wait (`minDuration_frame`), a pause its own time, and everything else none. -/
theorem waitsBoundTheTime : Obligations.WaitsBoundTheTime := by
  intro cfg fb hc
  constructor
  · rw [writeDisplay, frames, hc, framing, minDuration_frames, length_flushGroups]
  · rw [testEvents_eq cfg (by simp [hc])]
    simp only [List.map_append, List.map_cons, List.map_nil, List.sum_append, List.sum_cons, List.sum_nil,
      minDuration_frame, eventMinDuration]
    omega

end Sys2Proof.Machine
end

-- SUPPORT. The statements of progress: the events left run to `IDLE` (R21, R59, R112), after a reset (R103) and after a
-- drawing command (R26, R46, R76).
section

namespace Sys2Proof.Machine

/-! ## A run of the event list -/

/-- A block that can go on performing events: an admitted configuration and no reset to come. -/
structure Undisturbed (s : State) : Prop where
  ok : s.cfg.ok = true
  noReset : ∀ c, HostMove.reset c ∉ s.host

/-- What performing events of the list keeps, on the way from `s` to `t`: the list, the framebuffer, the error status, and
the pins and chips the list leads to. -/
structure KeepsTheList (s t : State) : Prop where
  ev : t.ev = s.ev
  fb : t.fb = s.fb
  ill : t.ill = s.ill
  illCause : t.illCause = s.illCause
  illWord : t.illWord = s.illWord
  cs : t.settled.cs = s.settled.cs
  clk : t.settled.clk = s.settled.clk
  din : t.settled.din = s.settled.din
  chain : t.settled.chain = s.settled.chain

theorem KeepsTheList.refl (s : State) : KeepsTheList s s := ⟨rfl, rfl, rfl, rfl, rfl, rfl, rfl, rfl, rfl⟩

theorem KeepsTheList.trans {s t u : State} (h : KeepsTheList s t) (h' : KeepsTheList t u) : KeepsTheList s u where
  ev := h'.ev.trans h.ev
  fb := h'.fb.trans h.fb
  ill := h'.ill.trans h.ill
  illCause := h'.illCause.trans h.illCause
  illWord := h'.illWord.trans h.illWord
  cs := h'.cs.trans h.cs
  clk := h'.clk.trans h.clk
  din := h'.din.trans h.din
  chain := h'.chain.trans h.chain

/-- One step of the list: the position moves on by one, and the phase changes only with the last event. -/
theorem step_through_list {s : State} (hu : Undisturbed s) (hp : s.phase ≠ .idle) (hlt : s.pc < s.ev.length) :
    ∃ t, step s = .next t ∧ Undisturbed t ∧ KeepsTheList s t ∧ t.pc = s.pc + 1 ∧
      t.phase = if s.pc + 1 = s.ev.length then .idle else s.phase := by
  obtain ⟨hok, hhost⟩ := hu
  obtain ⟨hcs, hclk, hdin, hchain⟩ := settled_advance s hlt
  refine ⟨_, step_performs hok (rst_false_of_host hhost) hp (List.getElem?_eq_getElem hlt), ⟨?_, ?_⟩,
    ⟨?_, ?_, ?_, ?_, ?_, hcs, hclk, hdin, hchain⟩, ?_, ?_⟩
  · simpa using hok
  · simpa using hostAfterStep_noReset hhost
  all_goals simp

/-- Before the last event every step moves the position on by one and keeps the phase. -/
theorem runSteps_through_list {s : State} {k : Nat} (hu : Undisturbed s) (hp : s.phase ≠ .idle)
    (hlt : s.pc + k < s.ev.length) :
    ∃ t, runSteps k s = .next t ∧ Undisturbed t ∧ KeepsTheList s t ∧ t.pc = s.pc + k ∧ t.phase = s.phase := by
  induction k generalizing s with
  | zero => exact ⟨s, rfl, hu, .refl s, rfl, rfl⟩
  | succ k ih =>
    obtain ⟨t, hstep, hut, hkeep, hpc, hphase⟩ := step_through_list hu hp (by omega)
    rw [if_neg (by omega)] at hphase
    obtain ⟨u, hrun, huu, hkeep', hpc', hphase'⟩ := ih hut (hphase ▸ hp) (by rw [hkeep.ev]; omega)
    exact ⟨u, (runSteps_succ hstep k).trans hrun, huu, hkeep.trans hkeep', by omega, hphase'.trans hphase⟩

/-- With as many steps as events are left the whole list is performed and the block is `IDLE`. -/
theorem runSteps_to_idle {s : State} (hu : Undisturbed s) (hp : s.phase ≠ .idle) (hlt : s.pc < s.ev.length) :
    ∃ t, runSteps (s.ev.length - s.pc) s = .next t ∧ KeepsTheList s t ∧ t.pc = s.ev.length ∧ t.phase = .idle ∧
      t.settled = t := by
  obtain ⟨m, hm⟩ : ∃ m, s.ev.length - s.pc = m + 1 := ⟨s.ev.length - s.pc - 1, by omega⟩
  obtain ⟨t, hrun, hut, hkeep, hpc, hphase⟩ := runSteps_through_list (k := m) hu hp (by omega)
  obtain ⟨u, hstep, -, hkeep', hpc', hphase'⟩ := step_through_list hut (hphase ▸ hp) (by rw [hkeep.ev]; omega)
  have hend : u.pc = s.ev.length := by omega
  have hev : u.ev = s.ev := hkeep'.ev.trans hkeep.ev
  refine ⟨u, ?_, hkeep.trans hkeep', hend, hphase'.trans (if_pos (by rw [hkeep.ev]; omega)), ?_⟩
  · rw [hm, runSteps_add hrun, runSteps_succ hstep, runSteps_zero]
  · rw [State.settled, hend, hev, List.drop_length, performEvents_nil]

/-- Settles O58: before the last event the phase stays (`runSteps_through_list`), and with it the block is `IDLE` with no
event left, so its own pins and chips are those the list led to (`runSteps_to_idle`). -/
theorem eventListRunsToIdle : Obligations.EventListRunsToIdle := by
  intro s hok hp hlt hhost
  constructor
  · intro k hk
    obtain ⟨u, hrun, -, -, -, hphase⟩ := runSteps_through_list (k := k) ⟨hok, hhost⟩ hp (by omega)
    exact ⟨u, hrun, hphase⟩
  · obtain ⟨t, hrun, hkeep, hpc, hphase, hself⟩ := runSteps_to_idle ⟨hok, hhost⟩ hp hlt
    obtain ⟨hev, hfb, hill, hcause, hword, hcs, hclk, hdin, hchain⟩ := hkeep
    rw [hself] at hcs hclk hdin hchain
    exact ⟨t, hrun, hphase, hpc, hev, hfb, hill, hcause, hword, hcs, hclk, hdin, hchain⟩

/-! ## Where a run ends (R70) -/

/-- A list that keeps the discipline leaves the pins at rest. -/
theorem performEvents_of_framed {s : State} {es : List Event} (h : framed s.cs s.clk es = true) :
    (performEvents s es).cs = true ∧ (performEvents s es).clk = false := by
  induction es generalizing s with
  | nil => simpa [framed] using h
  | cons e es ih => exact ih (framed_performEvent h)

/-- Under the sequencer invariant the events left lead to pins at rest. -/
theorem SequencerInv.settled_at_rest {s : State} (h : SequencerInv s) :
    s.settled.cs = true ∧ s.settled.clk = false := performEvents_of_framed h.discipline

/-- From the start of a list that is run to its end the block is `IDLE` with its pins at rest, the framebuffer and the
error status as at the start, and the chips as the list leaves them. -/
theorem runSteps_from_start {s : State} (hu : Undisturbed s) (hinv : SequencerInv s) (hp : s.phase ≠ .idle)
    (hpc : s.pc = 0) : ∃ t, runSteps s.ev.length s = .next t ∧ t.phase = .idle ∧ t.cs = true ∧ t.clk = false ∧
      t.fb = s.fb ∧ t.ill = s.ill ∧ t.chain = (performEvents s s.ev).chain := by
  obtain ⟨t, hrun, hkeep, -, hphase, hself⟩ := runSteps_to_idle hu hp (hinv.running hp)
  obtain ⟨-, hfb, hill, -, -, hcs, hclk, -, hchain⟩ := hkeep
  obtain ⟨hrest, hrest'⟩ := hinv.settled_at_rest
  rw [hself] at hcs hclk hchain
  rw [hpc, Nat.sub_zero] at hrun
  rw [settled_of_start hpc] at hchain
  exact ⟨t, hrun, hphase, hcs.trans hrest, hclk.trans hrest', hfb, hill, hchain⟩

/-! ## The reset sequence (R103, R112) -/

/-- The reset sequence under `GROUP` without intensity. -/
theorem length_resetSeq_group {c : Config} (hc : c.cadence = .group) (hi : c.initIntensity = none) :
    (resetSeq c).length = 576 * c.n + 36 := by
  obtain ⟨hgroup, -, -⟩ := controlEventCounts c
  rw [(hgroup hc).2, if_pos hi, Nat.add_zero]

/-- Settles O59: the reset step starts the reset sequence (`step_of_host_reset`), whose events then run to `IDLE`. -/
theorem resetSequenceTakesItsSteps : Obligations.ResetSequenceTakesItsSteps := by
  intro s c h hh hok hc hi hhost
  have hstep := step_of_host_reset hh hok
  have hlen := length_resetSeq_group hc hi
  have hinv : SequencerInv (resetBlock c s.hostWaits) := sequencerInv_resetBlock c hok _
  have hu : Undisturbed (resetBlock c s.hostWaits) :=
    ⟨hok, by rw [State.resetBlock_host, State.hostWaits_host, hh]; exact hhost⟩
  constructor
  · intro k h1 hk
    obtain ⟨m, rfl⟩ := Nat.exists_eq_add_of_le' h1
    obtain ⟨u, hrun, -, -, -, hphase⟩ := runSteps_through_list (k := m) hu (by simp)
      (by rw [State.resetBlock_pc, State.resetBlock_ev]; omega)
    exact ⟨u, (runSteps_succ hstep m).trans hrun, hphase⟩
  · obtain ⟨t, hrun, hphase, hcs, hclk, hfb, hill, -⟩ := runSteps_from_start hu hinv (by simp) rfl
    rw [State.resetBlock_ev, hlen] at hrun
    exact ⟨t, (runSteps_succ hstep _).trans hrun, hphase, hcs, hclk, fun a => by rw [hfb]; exact Memory.read_nil a, hill⟩

/-! ## A drawing command (R26, R46, R76) -/

/-- A flush started from rest under `GROUP` runs to `IDLE` and brings every row register of every chip to the
framebuffer's byte. -/
theorem runSteps_startFlush {s : State} (hu : Undisturbed s) (hcs : s.cs = true) (hclk : s.clk = false)
    (hc : s.cfg.cadence = .group) (hl : s.chain.length = s.cfg.n) :
    ∃ t, runSteps (384 * s.cfg.n + 24) s.startFlush = .next t ∧ t.phase = .idle ∧ t.cs = true ∧ t.clk = false ∧
      t.fb = s.fb ∧
      ∀ r, r < 8 → ∀ p, 1 ≤ p → p ≤ s.cfg.n → chainReg t.chain p (r + 1) = t.fbRead r (s.cfg.n - p) := by
  obtain ⟨hok, hhost⟩ := hu
  have hinv : SequencerInv s.startFlush := sequencerInv_of_start (by simp) rfl hcs hclk
    (writeDisplay_ne_nil s.cfg s.fb ((cfg_ok_iff _).mp hok).1) (framed_writeDisplay s.cfg s.fb)
  obtain ⟨t, hrun, hphase, hcs', hclk', hfb, -, hchain⟩ :=
    runSteps_from_start (s := s.startFlush) ⟨hok, hhost⟩ hinv (by simp) rfl
  obtain ⟨-, hgroup, -⟩ := flushEventCounts s.cfg s.fb
  rw [State.startFlush_ev, hgroup hc] at hrun
  refine ⟨t, hrun, hphase, hcs', hclk', hfb, fun r hr p hp hv => ?_⟩
  rw [hchain, State.fbRead, hfb]
  exact chainReg_writeDisplay_group s.startFlush s.fb hc hclk hl hp hv hr

/-- Settles O60: the step that takes the word starts the flush of what the command drew (`exec_draws`), which then runs to
its end (`runSteps_startFlush`). -/
theorem drawingCommandReachesTheChips : Obligations.DrawingCommandReachesTheChips := by
  intro s w h i hok hc hseq hp hl hh hhost hd htest hres
  have hn : 1 ≤ s.cfg.n := ((cfg_ok_iff _).mp hok).1
  have hstep := (step_takes_word hok hp hh).trans (accept_of_instr hd _)
  obtain ⟨fb, hexec, -, -⟩ := exec_draws (i := i) ⟨htest, hres⟩ { s with cmd := w, host := h } hn
  obtain ⟨-, hcs, hclk⟩ := hseq.idle hp
  have hu : Undisturbed { s with cmd := w, host := h, fb := fb } := ⟨hok, hhost⟩
  obtain ⟨t, hrun, hdone⟩ := runSteps_startFlush hu hcs hclk hc hl
  exact ⟨_, t, hexec, (runSteps_succ (hstep.trans hexec) _).trans hrun, hdone⟩

end Sys2Proof.Machine
end
